-- ==== Sys2Proof/Word.lean ====
section
/-! DEFINITION. The widths of the block's data (00_scope.md R5, R10). All of them are unsigned bit strings whose bit 0 is
the least significant. -/

namespace Sys2Proof

/-- A byte: a permutation entry, a counter, a key, IV, data or keystream byte. -/
abbrev Byte := BitVec 8

/-- A command word (R70). -/
abbrev Word := BitVec 32

/-- A count operand, and the width of the counter CNT (R5, R32, R74). -/
abbrev Count := BitVec 24

end Sys2Proof
end

