-- ==== Sys2Proof/Syntax.lean ====
section
/-! DEFINITION. The command set as data: one constructor per row of the opcode table (30_encoding.md R75). Operands have
the widths of R74, so no operand out of range can be written (60_exceptions.md R194, 93 U3). -/

namespace Sys2Proof

/-- The sixteen commands of R75. -/
inductive Instr where
  /-- NOP: nothing (R180). -/
  | nop
  /-- ZERO: erase everything and leave the faulted condition (R181). -/
  | zero
  /-- KCLR: empty the key buffer (R100). -/
  | kclr
  /-- KEYB: append one key byte (R101). -/
  | keyb (byte : Byte)
  /-- IVCLR: empty the IV buffer (R152). -/
  | ivclr
  /-- IVB: append one IV byte (R153). -/
  | ivb (byte : Byte)
  /-- INIT.RC4: start a baseline RC4 instance (R111). -/
  | initRc4 (count : Count)
  /-- INIT.RC4A: start an RC4A instance (R121). -/
  | initRc4a (count : Count)
  /-- INIT.VMPC: start a VMPC instance (R131). -/
  | initVmpc (count : Count)
  /-- INIT.RC4P: start an RC4+ instance (R141). -/
  | initRc4p (count : Count)
  /-- INIT.DROP: start an RC4-drop instance (R150). -/
  | initDrop (count : Count)
  /-- INIT.IV: start a baseline RC4 instance, skip derived from the IV buffer (R155). -/
  | initIv
  /-- GEN: emit one keystream byte (R166). -/
  | gen
  /-- XORB: emit a data byte combined with one keystream byte (R168). -/
  | xorb (byte : Byte)
  /-- GENN: emit `count` keystream bytes (R167). -/
  | genn (count : Count)
  /-- DROP: run `count` steps and discard the bytes (R151). -/
  | drop (count : Count)
  deriving DecidableEq, Repr

/-- The three command word formats (R71, R72, R73). -/
inductive Format where
  /-- No operand. -/
  | n
  /-- One byte operand. -/
  | b
  /-- One count operand. -/
  | c
  deriving DecidableEq, Repr

/-- The format of each command (R71, R72, R73). -/
def Instr.format : Instr → Format
  | .nop | .zero | .kclr | .ivclr | .initIv | .gen => .n
  | .keyb _ | .ivb _ | .xorb _ => .b
  | .initRc4 _ | .initRc4a _ | .initVmpc _ | .initRc4p _ | .initDrop _ | .genn _ | .drop _ => .c

/-- The operand of a command as an unsigned number (R74); a command without one has operand 0. -/
def Instr.operand : Instr → Nat
  | .nop | .zero | .kclr | .ivclr | .initIv | .gen => 0
  | .keyb b | .ivb b | .xorb b => b.toNat
  | .initRc4 c | .initRc4a c | .initVmpc c | .initRc4p c | .initDrop c | .genn c | .drop c => c.toNat

/-- The mnemonic of a command in the opcode table (R75, R79). -/
def Instr.mnemonic : Instr → String
  | .nop => "NOP"
  | .zero => "ZERO"
  | .kclr => "KCLR"
  | .keyb _ => "KEYB"
  | .ivclr => "IVCLR"
  | .ivb _ => "IVB"
  | .initRc4 _ => "INIT.RC4"
  | .initRc4a _ => "INIT.RC4A"
  | .initVmpc _ => "INIT.VMPC"
  | .initRc4p _ => "INIT.RC4P"
  | .initDrop _ => "INIT.DROP"
  | .initIv => "INIT.IV"
  | .gen => "GEN"
  | .xorb _ => "XORB"
  | .genn _ => "GENN"
  | .drop _ => "DROP"

end Sys2Proof
end

