-- ==== Sys2Proof/WellFormed.lean ====
section
/-! DEFINITION. Which command words and which commands are well formed. The words are checked against the match and mask
of each row (30_encoding.md R71 to R76), which is a second reading of the encoding beside the decoder's field by field
one. -/

namespace Sys2Proof

/-- How many low bits of a command word the operand of a format may use (R71, R72, R73). -/
def Format.operandBits : Format → Nat
  | .n => 0
  | .b => 8
  | .c => 24

/-- A command is well formed when its operand fits the operand field of its format. The operand types make this true
of every `Instr` (R74, R194): the lemma is `Sys2Proof.Laws.wellFormed_all`. -/
def Instr.wellFormed (i : Instr) : Bool :=
  decide (i.operand < 2 ^ i.format.operandBits)

/-- One row of the opcode map: a word belongs to it when it equals `value` on the bits of `mask`. -/
structure Row where
  mnemonic : String
  mask : Word
  value : Word
  deriving DecidableEq, Repr

/-- The opcode map of R75 with the match masks of R71 (format N), R72 (format B) and R73 (format C). -/
def opcodeMap : List Row :=
  [ ⟨"NOP", 0xFFFFFFFF, 0x00000000⟩, ⟨"ZERO", 0xFFFFFFFF, 0x01000000⟩,
    ⟨"KCLR", 0xFFFFFFFF, 0x08000000⟩, ⟨"KEYB", 0xFFFFFF00, 0x09000000⟩,
    ⟨"IVCLR", 0xFFFFFFFF, 0x0A000000⟩, ⟨"IVB", 0xFFFFFF00, 0x0B000000⟩,
    ⟨"INIT.RC4", 0xFF000000, 0x10000000⟩, ⟨"INIT.RC4A", 0xFF000000, 0x11000000⟩,
    ⟨"INIT.VMPC", 0xFF000000, 0x12000000⟩, ⟨"INIT.RC4P", 0xFF000000, 0x13000000⟩,
    ⟨"INIT.DROP", 0xFF000000, 0x14000000⟩, ⟨"INIT.IV", 0xFFFFFFFF, 0x15000000⟩,
    ⟨"GEN", 0xFFFFFFFF, 0x20000000⟩, ⟨"XORB", 0xFFFFFF00, 0x21000000⟩,
    ⟨"GENN", 0xFF000000, 0x22000000⟩, ⟨"DROP", 0xFF000000, 0x23000000⟩ ]

/-- Does the word belong to the row? -/
def Row.matches (r : Row) (cw : Word) : Bool :=
  cw &&& r.mask == r.value

/-- A command word is legal when it belongs to some row (R76: every other word is illegal). -/
def wordLegal (cw : Word) : Bool :=
  opcodeMap.any fun r => r.matches cw

end Sys2Proof
end

