-- ==== Sys2Proof/Decode.lean ====
section
/-! DEFINITION. The decoder, total on every 32-bit command word and refusing by name, and the encoder, both written from
30_encoding.md R70 to R76. The command word travels whole, so it has no byte order (20_memory.md R51). -/

namespace Sys2Proof

/-- Why a word is illegal (R76). Either reason raises the same fault, ILLEGAL_CMD (60_exceptions.md R193). -/
inductive Reject where
  /-- `cw[31:24]` is none of the sixteen opcodes of R75. -/
  | unassignedOpcode
  /-- A must-be-zero field of the format is not 0. -/
  | nonZeroField
  deriving DecidableEq, Repr

/-- `op = cw[31:24]` in every format (R70). -/
def opField (cw : Word) : Byte := cw.extractLsb' 24 8

/-- `byte = cw[7:0]` of format B (R72, R74). -/
def byteField (cw : Word) : Byte := cw.extractLsb' 0 8

/-- `cw[23:8]`, the must-be-zero field of format B (R72). -/
def middleField (cw : Word) : BitVec 16 := cw.extractLsb' 8 16

/-- `cw[23:0]`: the count of format C (R73, R74), the must-be-zero field of format N (R71). -/
def lowField (cw : Word) : Count := cw.extractLsb' 0 24

/-- Format N: no operand, `cw[23:0]` must be 0 (R71). -/
def readN (i : Instr) (cw : Word) : Except Reject Instr :=
  if lowField cw = 0 then .ok i else .error .nonZeroField

/-- Format B: a byte operand, `cw[23:8]` must be 0 (R72). -/
def readB (f : Byte → Instr) (cw : Word) : Except Reject Instr :=
  if middleField cw = 0 then .ok (f (byteField cw)) else .error .nonZeroField

/-- Format C: a count operand, every value legal (R73). -/
def readC (f : Count → Instr) (cw : Word) : Except Reject Instr :=
  .ok (f (lowField cw))

/-- The decoder of R75: look up the opcode, check the zero field of the format, take the operand. -/
def decode (cw : Word) : Except Reject Instr :=
  match (opField cw).toNat with
  | 0x00 => readN .nop cw
  | 0x01 => readN .zero cw
  | 0x08 => readN .kclr cw
  | 0x09 => readB .keyb cw
  | 0x0A => readN .ivclr cw
  | 0x0B => readB .ivb cw
  | 0x10 => readC .initRc4 cw
  | 0x11 => readC .initRc4a cw
  | 0x12 => readC .initVmpc cw
  | 0x13 => readC .initRc4p cw
  | 0x14 => readC .initDrop cw
  | 0x15 => readN .initIv cw
  | 0x20 => readN .gen cw
  | 0x21 => readB .xorb cw
  | 0x22 => readC .genn cw
  | 0x23 => readC .drop cw
  | _ => .error .unassignedOpcode

/-- A format N word (R71). -/
def wordN (op : Byte) : Word := op ++ (0 : BitVec 24)

/-- A format B word (R72). -/
def wordB (op byte : Byte) : Word := op ++ (0 : BitVec 16) ++ byte

/-- A format C word (R73). -/
def wordC (op : Byte) (count : Count) : Word := op ++ count

/-- The encoder: each command's word by R75. -/
def encode : Instr → Word
  | .nop => wordN 0x00
  | .zero => wordN 0x01
  | .kclr => wordN 0x08
  | .keyb b => wordB 0x09 b
  | .ivclr => wordN 0x0A
  | .ivb b => wordB 0x0B b
  | .initRc4 c => wordC 0x10 c
  | .initRc4a c => wordC 0x11 c
  | .initVmpc c => wordC 0x12 c
  | .initRc4p c => wordC 0x13 c
  | .initDrop c => wordC 0x14 c
  | .initIv => wordN 0x15
  | .gen => wordN 0x20
  | .xorb b => wordB 0x21 b
  | .genn c => wordC 0x22 c
  | .drop c => wordC 0x23 c

/-- The command word whose low `nbits` bits are those of `w` and whose other bits are 0. -/
def tableWord (nbits w : Nat) : Word := BitVec.ofNat 32 (w % 2 ^ nbits)

/-- What the decoder reads from a word numbered as the opcode table numbers it (bit 0 the least significant). -/
def decodeTableWord (nbits w : Nat) : Option Instr :=
  match decode (tableWord nbits w) with
  | .ok i => some i
  | .error _ => none

end Sys2Proof
end

