-- ==== Sys2Proof/Config.lean ====
section
/-! DEFINITION. What the spec fixes for every RC4CORE block (00_scope.md R5). The spec leaves no value open
(R9: every command is a total, deterministic function), so this file holds no free value. -/

namespace Sys2Proof

/-- N, the entries of a permutation, and so the size of the memories `S` and `S2` (R5, R50). -/
def Config.permutationSize : Nat := 256

/-- KMAX, the largest key length and the size of the memory `KEY` (R5, R50). -/
def Config.keyMax : Nat := 256

/-- IVMAX, the largest IV length and the size of the memory `IV` (R5, R50). -/
def Config.ivMax : Nat := 16

/-- The IV skip constant (R5, R154). -/
def Config.ivSkipConstant : Nat := 510

/-- The IV skip modulus (R5, R154). -/
def Config.ivSkipModulus : Nat := 65536

/-- The skip an assembler supplies when INIT.DROP is written without its operand (R79): the hardware itself has no
default. -/
def Config.assemblerDropSkip : Nat := 768

end Sys2Proof
end

