-- ==== Sys2Proof/Machine/State.lean ====
section
/-! DEFINITION. The state of the block as plain data (10_state.md R20), the observation OUT (R37), the host's pending
inputs, the reasons a step can stop, and the state after reset (R39). -/

namespace Sys2Proof.Machine

/-- A byte memory: (index, byte) pairs with strictly rising indexes. An index that is not listed holds no value
(R39: contents after reset are unspecified and unreachable; 93_implementation_defined.md U5; notes/assumptions/4.md). -/
abbrev Memory := List Host.Cell

/-- The four address spaces of 20_memory.md R50. -/
inductive Space where
  /-- The primary permutation (R33). -/
  | S
  /-- The second permutation, of RC4A (R34). -/
  | S2
  /-- The key buffer (R35). -/
  | KEY
  /-- The IV buffer (R36). -/
  | IV
  deriving DecidableEq, Repr

/-- The phase flag PH (R24): 1 bit, FIRST = 0, SECOND = 1. -/
inductive Phase where
  | first
  | second
  deriving DecidableEq, Repr

/-- The variant tag VAR (R26). The three-bit values 5 to 7 are produced by no command and have no meaning, so the type
does not hold them (93 U7; notes/assumptions/5.md). -/
inductive Variant where
  | rc4
  | rc4a
  | vmpc
  | rc4p
  | rc4drop
  deriving DecidableEq, Repr

/-- The fault code ECODE (R28, R190). The four-bit values 4 to 15 are never produced and the type does not hold them
(93 U7; notes/assumptions/5.md). -/
inductive ECode where
  | none
  | emptyKey
  | notKeyed
  | illegalCmd
  deriving DecidableEq, Repr

/-- What the host may do to the block (00_scope.md R6, R8): present a command word, or apply reset (70 R220). -/
inductive HostInput where
  | command (cw : Word)
  | reset
  deriving DecidableEq, Repr

/-- The architectural state of R20, with OUT and the host's inputs beside it. -/
structure State where
  /-- Counter `i` (R21). -/
  i : Byte
  /-- Counter `j` (R22). -/
  j : Byte
  /-- Counter `j2`, used by RC4A only (R23). -/
  j2 : Byte
  /-- Phase flag (R24). -/
  ph : Phase
  /-- Variant tag (R26). -/
  var : Variant
  /-- A key schedule has completed (R27). -/
  keyed : Bool
  /-- Fault code (R28). -/
  ecode : ECode
  /-- Bytes in the key buffer, 0 to 256 (R30). -/
  klen : Fin 257
  /-- Bytes in the IV buffer, 0 to 16 (R31). -/
  ivlen : Fin 17
  /-- Skip and generate down-counter (R32). -/
  cnt : Count
  /-- Primary permutation (R33). -/
  S : Memory
  /-- Second permutation (R34). -/
  S2 : Memory
  /-- Key buffer (R35). -/
  KEY : Memory
  /-- IV buffer (R36). -/
  IV : Memory
  /-- OUT, the bytes emitted since reset, oldest first: an observation, not state of the block (R37). -/
  out : List Byte
  /-- The model's own field: the inputs the host has yet to present, in order (R6, R40; notes/assumptions/1.md). -/
  port : List HostInput
  deriving DecidableEq, Repr

/-- Why the model stops. The block's own three faults (R190) are no stops: they set ECODE and the block goes on. -/
inductive Fault where
  /-- A read of an entry of the named memory that nothing has written since reset. Raised by `memRead`. Safe: the spec
  gives such an entry no value and says no command sequence reads one (R39, 93 U5), and the invariant
  `Sys2Proof.Safety.Inv` rules it out. -/
  | unwrittenRead (M : Space)
  deriving DecidableEq, Repr

/-- Why the model gives no meaning. -/
inductive Refusal where
  /-- An instruction without a meaning in this model. No arm of `exec` raises it: every instruction has a meaning.
  Raising it would be safe. -/
  | notModelled (mnemonic : String)
  deriving DecidableEq, Repr

/-- The state after reset (R39): every register 0, the four memories without a value, OUT empty; the host has presented
nothing yet (notes/assumptions/1.md). -/
def State.reset : State where
  i := 0
  j := 0
  j2 := 0
  ph := .first
  var := .rc4
  keyed := false
  ecode := .none
  klen := 0
  ivlen := 0
  cnt := 0
  S := []
  S2 := []
  KEY := []
  IV := []
  out := []
  port := []

end Sys2Proof.Machine
end

