-- ==== Sys2Proof/Machine/Ops.lean ====
section
/-! DEFINITION. The named operations over memory and registers (00_scope.md R12), fault entry (60_exceptions.md R196), the
two ways out of a fault (R198): erasure and reset. -/

namespace Sys2Proof.Machine

/-! ### One memory -/

/-- The byte at index `a`, or none where nothing has been written. -/
def Memory.read (a : Nat) : Memory → Option Byte
  | [] => none
  | (b, w) :: m => if a = b then some w else Memory.read a m

/-- Write byte `v` at index `a`, keeping the indexes strictly rising. -/
def Memory.write (a : Nat) (v : Byte) : Memory → Memory
  | [] => [(a, v)]
  | (b, w) :: m =>
    if a = b then (a, v) :: m
    else if a < b then (a, v) :: (b, w) :: m
    else (b, w) :: Memory.write a v m

/-- Every index of the list is above `a` and they rise strictly. -/
def Memory.risesAbove (a : Nat) : Memory → Bool
  | [] => true
  | (b, _) :: m => decide (a < b) && Memory.risesAbove b m

/-- The canonical form: indexes rise strictly. An unlisted index reads as no value, so no listed entry can equal what an
unlisted one reads as. -/
def Memory.wf : Memory → Bool
  | [] => true
  | (b, _) :: m => Memory.risesAbove b m

/-- Every listed index is below `size`. -/
def Memory.within (size : Nat) (m : Memory) : Bool :=
  m.all fun c => decide (c.1 < size)

/-- `size` entries, all of them 0. -/
def Memory.zeros (size : Nat) : Memory :=
  (List.range size).map fun a => (a, 0)

/-! ### Registers -/

def State.setI (v : Byte) (s : State) : State := { s with i := v }
def State.setJ (v : Byte) (s : State) : State := { s with j := v }
def State.setJ2 (v : Byte) (s : State) : State := { s with j2 := v }
def State.setPh (v : Phase) (s : State) : State := { s with ph := v }
def State.setVar (v : Variant) (s : State) : State := { s with var := v }
def State.setKeyed (v : Bool) (s : State) : State := { s with keyed := v }
def State.setEcode (v : ECode) (s : State) : State := { s with ecode := v }
def State.setKlen (v : Fin 257) (s : State) : State := { s with klen := v }
def State.setIvlen (v : Fin 17) (s : State) : State := { s with ivlen := v }
def State.setCnt (v : Count) (s : State) : State := { s with cnt := v }
def State.setOut (v : List Byte) (s : State) : State := { s with out := v }
def State.setPort (v : List HostInput) (s : State) : State := { s with port := v }

/-! ### The four memories of a state -/

/-- The number of entries of each address space (R50). -/
def Space.size : Space → Nat
  | .S | .S2 => Config.permutationSize
  | .KEY => Config.keyMax
  | .IV => Config.ivMax

/-- The contents of an address space. -/
def State.memory (M : Space) (s : State) : Memory :=
  match M with
  | .S => s.S
  | .S2 => s.S2
  | .KEY => s.KEY
  | .IV => s.IV

/-- Replace the contents of an address space. -/
def State.setMemory (M : Space) (m : Memory) (s : State) : State :=
  match M with
  | .S => { s with S := m }
  | .S2 => { s with S2 := m }
  | .KEY => { s with KEY := m }
  | .IV => { s with IV := m }

/-- `MemRead(M, a, 1)` (R12, R53). No index of any rule leaves its space (R54); an entry nothing has written has no value
(R39) and stops the model. -/
def memRead (M : Space) (a : Nat) (s : State) : Except Fault Byte :=
  match Memory.read a (s.memory M) with
  | some v => .ok v
  | none => .error (.unwrittenRead M)

/-- `MemWrite(M, a, 1, v)` (R12, R53). -/
def memWrite (M : Space) (a : Nat) (v : Byte) (s : State) : State :=
  s.setMemory M (Memory.write a v (s.memory M))

/-- `swap(M, a, b)` (R12): `t <- M[a]; M[a] <- M[b]; M[b] <- t`. -/
def swap (M : Space) (a b : Byte) (s : State) : Except Fault State := do
  let t ← memRead M a.toNat s
  let u ← memRead M b.toNat s
  return memWrite M b.toNat t (memWrite M a.toNat u s)

/-- `emit(b)` (R12): append the byte to the output stream OUT (R37). -/
def emit (b : Byte) (s : State) : State :=
  s.setOut (s.out ++ [b])

/-! ### Faults: entry and the ways out -/

/-- `raise Fault(code)` (R196): record the code and do nothing else. A code already recorded is kept (R28: written only
when ECODE = 0; the first fault is kept). -/
def raise (code : ECode) (s : State) : State :=
  if s.ecode = .none then s.setEcode code else s

/-- The effect of ZERO (R181), one of the two ways out of a fault (R198): every register and every entry of the four
memories becomes 0; OUT is not state of the block and stays. -/
def erase (s : State) : State :=
  { i := 0, j := 0, j2 := 0, ph := .first, var := .rc4,
    keyed := false, ecode := .none, klen := 0, ivlen := 0, cnt := 0,
    S := Memory.zeros Space.S.size, S2 := Memory.zeros Space.S2.size,
    KEY := Memory.zeros Space.KEY.size, IV := Memory.zeros Space.IV.size,
    out := s.out, port := s.port }

/-- Reset (R220, R39), the other way out of a fault: the state after reset; what the host has yet to present stays with
the host. -/
def applyReset (s : State) : State :=
  State.reset.setPort s.port

/-! ### The outcome of a command -/

/-- A computation inside a command as the outcome of the command. -/
def finish : Except Fault State → Host.Outcome State Fault Refusal
  | .ok s => .next s
  | .error f => .fault f

end Sys2Proof.Machine
end

