-- ==== Sys2Proof/Machine/Buffers.lean ====
section
/-! DEFINITION. The commands that load the key buffer (40_key_schedule.md R100, R101) and the IV buffer
(45_rc4drop_skip.md R152, R153). -/

namespace Sys2Proof.Machine

/-- KCLR (R100): `KLEN <- 0`; the contents of KEY are not erased. -/
def execKclr (s : State) : Host.Outcome State Fault Refusal :=
  .next (s.setKlen 0)

/-- KEYB (R101): append one byte, or nothing once 256 are held. -/
def execKeyb (byte : Byte) (s : State) : Host.Outcome State Fault Refusal :=
  if h : s.klen.val < 256 then
    .next ((memWrite .KEY s.klen.val byte s).setKlen ⟨s.klen.val + 1, Nat.succ_lt_succ h⟩)
  else .next s

/-- IVCLR (R152): `IVLEN <- 0`; the contents of IV are not erased. -/
def execIvclr (s : State) : Host.Outcome State Fault Refusal :=
  .next (s.setIvlen 0)

/-- IVB (R153): append one byte, or nothing once 16 are held. -/
def execIvb (byte : Byte) (s : State) : Host.Outcome State Fault Refusal :=
  if h : s.ivlen.val < 16 then
    .next ((memWrite .IV s.ivlen.val byte s).setIvlen ⟨s.ivlen.val + 1, Nat.succ_lt_succ h⟩)
  else .next s

end Sys2Proof.Machine
end

