-- ==== Sys2Proof/Machine/Control.lean ====
section
/-! DEFINITION. The control commands NOP and ZERO (47_control.md). -/

namespace Sys2Proof.Machine

/-- NOP (R180): no effect. -/
def execNop (s : State) : Host.Outcome State Fault Refusal :=
  .next s

/-- ZERO (R181): erase everything and leave the faulted condition. -/
def execZero (s : State) : Host.Outcome State Fault Refusal :=
  .next (erase s)

end Sys2Proof.Machine
end

