-- ==== Sys2Proof/Machine/Flags.lean ====
section
/-! DEFINITION. The flags of the block as bits (10_state.md R24, R26, R27, R28) and the STATUS port (R29). There is no
arithmetic condition code (R24). -/

namespace Sys2Proof.Machine

/-- The phase after a step of RC4A (R120). -/
def Phase.toggle : Phase → Phase
  | .first => .second
  | .second => .first

/-- The bit of PH (R24). -/
def Phase.bit : Phase → BitVec 1
  | .first => 0
  | .second => 1

/-- The number of a variant tag (R26). -/
def Variant.code : Variant → BitVec 3
  | .rc4 => 0
  | .rc4a => 1
  | .vmpc => 2
  | .rc4p => 3
  | .rc4drop => 4

/-- The number of a fault code (R28, R190). -/
def ECode.code : ECode → BitVec 4
  | .none => 0
  | .emptyKey => 1
  | .notKeyed => 2
  | .illegalCmd => 3

/-- `STATUS` (R29): `ECODE` in bits 7 to 4, `VAR` in bits 3 to 1, `KEYED` in bit 0. -/
def State.status (s : State) : Byte :=
  s.ecode.code ++ s.var.code ++ BitVec.ofBool s.keyed

end Sys2Proof.Machine
end

