-- ==== Sys2Proof/Machine/Operands.lean ====
section
/-! DEFINITION. The arithmetic laws of 00_scope.md R11, the index forms of 20_memory.md R55 that are more than one
addition, and the skip count derived from the IV buffer (45_rc4drop_skip.md R154). -/

namespace Sys2Proof.Machine

/-- `add8(a,b)` (R11 a): the sum modulo 256, the carry dropped. -/
def add8 (a b : Byte) : Byte := a + b

/-- `inc8(a)` (R11 b): `inc8(255) = 0`. -/
def inc8 (a : Byte) : Byte := add8 a 1

/-- `shl8(a,n)` (R11 d): logical left shift, bits shifted out of bit 7 dropped. -/
def shl8 (a : Byte) (n : Nat) : Byte := a <<< n

/-- `shr8(a,n)` (R11 e): logical right shift, zeros shifted in. -/
def shr8 (a : Byte) (n : Nat) : Byte := a >>> n

/-- The mixed index of RC4+ (R140): `shl8(a,5) XOR shr8(b,3)`; `v` is `mix i j` and `w` is `mix j i`. -/
def mix (a b : Byte) : Byte := shl8 a 5 ^^^ shr8 b 3

/-- The key index `n mod L` of the key schedule (R102, R11 f). It exists for `L ≥ 1` only: the modulo by zero is never
evaluated (R191, 93 U2). -/
def keyIndex (n L : Nat) (_ : 0 < L) : Nat := n % L

/-- The loop of IVSKIP (R154): add `IV[k] · 2^k` for each `k` of the list, without truncation. -/
def ivSum : List Nat → Nat → State → Except Fault Nat
  | [], sum, _ => .ok sum
  | k :: ks, sum, s => do
    let b ← memRead .IV k s
    ivSum ks (sum + b.toNat * 2 ^ k) s

/-- `IVSKIP()` (R154): 0 for an empty IV buffer, else `(510 + sum) mod 65536`. The reading of the formula for a non-empty
IV is the spec's decision D27 (notes/assumptions/11.md). -/
def ivSkip (s : State) : Except Fault Nat :=
  if s.ivlen = 0 then .ok 0
  else do
    let sum ← ivSum (List.range s.ivlen.val) 0 s
    return (Config.ivSkipConstant + sum) % Config.ivSkipModulus

end Sys2Proof.Machine
end

