-- ==== Sys2Proof/Machine/Prga.lean ====
section
/-! DEFINITION. The step functions of the five variants and their dispatch: 41_prga_rc4.md R110, 42_prga_rc4a.md R120,
43_prga_vmpc.md R130, 44_prga_rc4plus.md R140, 46_driver_xor.md R165; and the loops that run a counted number of steps
(45_rc4drop_skip.md R156). Reads and writes stand in the order of the pseudocode (20_memory.md R56). -/

namespace Sys2Proof.Machine

/-- `STEP_RC4()` (R110). -/
def stepRc4 (s : State) : Except Fault (Byte × State) := do
  let s := s.setI (inc8 s.i)
  let si ← memRead .S s.i.toNat s
  let s := s.setJ (add8 s.j si)
  let s ← swap .S s.i s.j s
  let si ← memRead .S s.i.toNat s
  let sj ← memRead .S s.j.toNat s
  let k ← memRead .S (add8 si sj).toNat s
  return (k, s)

/-- The FIRST phase of `STEP_RC4A()` (R120): swap in `S`, look up in `S2`. -/
def stepRc4aFirst (s : State) : Except Fault (Byte × State) := do
  let s := s.setPh s.ph.toggle
  let s := s.setI (inc8 s.i)
  let si ← memRead .S s.i.toNat s
  let s := s.setJ (add8 s.j si)
  let s ← swap .S s.i s.j s
  let si ← memRead .S s.i.toNat s
  let sj ← memRead .S s.j.toNat s
  let k ← memRead .S2 (add8 si sj).toNat s
  return (k, s)

/-- The SECOND phase of `STEP_RC4A()` (R120): swap in `S2`, look up in `S`; `i` is not advanced. -/
def stepRc4aSecond (s : State) : Except Fault (Byte × State) := do
  let s := s.setPh s.ph.toggle
  let si ← memRead .S2 s.i.toNat s
  let s := s.setJ2 (add8 s.j2 si)
  let s ← swap .S2 s.i s.j2 s
  let si ← memRead .S2 s.i.toNat s
  let sj ← memRead .S2 s.j2.toNat s
  let k ← memRead .S (add8 si sj).toNat s
  return (k, s)

/-- `STEP_RC4A()` (R120). -/
def stepRc4a (s : State) : Except Fault (Byte × State) :=
  match s.ph with
  | .first => stepRc4aFirst s
  | .second => stepRc4aSecond s

/-- `STEP_VMPC()` (R130): the output is read before the two writes, and `i` advances last. -/
def stepVmpc (s : State) : Except Fault (Byte × State) := do
  let a ← memRead .S s.i.toNat s
  let j ← memRead .S (add8 s.j a).toNat s
  let s := s.setJ j
  let b ← memRead .S s.j.toNat s
  let c ← memRead .S b.toNat s
  let k ← memRead .S (inc8 c).toNat s
  let s := memWrite .S s.i.toNat b s
  let s := memWrite .S s.j.toNat a s
  let s := s.setI (inc8 s.i)
  return (k, s)

/-- `STEP_RC4P()` (R140): `c` has three terms, all of them read after the swap. -/
def stepRc4p (s : State) : Except Fault (Byte × State) := do
  let s := s.setI (inc8 s.i)
  let a ← memRead .S s.i.toNat s
  let s := s.setJ (add8 s.j a)
  let b ← memRead .S s.j.toNat s
  let s := memWrite .S s.i.toNat b s
  let s := memWrite .S s.j.toNat a s
  let sv ← memRead .S (mix s.i s.j).toNat s
  let sj ← memRead .S s.j.toNat s
  let sw ← memRead .S (mix s.j s.i).toNat s
  let c := add8 (add8 sv sj) sw
  let x ← memRead .S (add8 a b).toNat s
  let y ← memRead .S (c ^^^ 0xAA).toNat s
  let z ← memRead .S (add8 s.j b).toNat s
  return (add8 x y ^^^ z, s)

/-- `STEP()` (R165): the dispatch on the variant tag. It returns one keystream byte and the advanced state. -/
def stepCipher (s : State) : Except Fault (Byte × State) :=
  match s.var with
  | .rc4 => stepRc4 s
  | .rc4a => stepRc4a s
  | .vmpc => stepVmpc s
  | .rc4p => stepRc4p s
  | .rc4drop => stepRc4 s

/-- `n` turns of `discard STEP(); CNT <- CNT - 1` (R103, R151). -/
def discardLoop : Nat → State → Except Fault State
  | 0, s => .ok s
  | n + 1, s => do
    let r ← stepCipher s
    discardLoop n (r.2.setCnt (r.2.cnt - 1))

/-- `n` turns of `k <- STEP(); emit(k); CNT <- CNT - 1` (R167). -/
def emitLoop : Nat → State → Except Fault State
  | 0, s => .ok s
  | n + 1, s => do
    let r ← stepCipher s
    let s := emit r.1 r.2
    emitLoop n (s.setCnt (s.cnt - 1))

/-- `CNT <- n; while CNT ≠ 0: discard STEP(); CNT <- CNT - 1` (R103, R151): a step changes no CNT, so the loop turns
exactly `n` times (R156). -/
def discardSteps (n : Count) (s : State) : Except Fault State :=
  discardLoop n.toNat (s.setCnt n)

/-- `CNT <- n; while CNT ≠ 0: k <- STEP(); emit(k); CNT <- CNT - 1` (R167, R156). -/
def emitSteps (n : Count) (s : State) : Except Fault State :=
  emitLoop n.toNat (s.setCnt n)

end Sys2Proof.Machine
end

