-- ==== Sys2Proof/Machine/KeySchedule.lean ====
section
/-! DEFINITION. The key schedule and the procedure the six INIT commands share (40_key_schedule.md R102, R103). -/

namespace Sys2Proof.Machine

/-- The first loop of `KSA(M)` (R102): `M[n] <- n` for each `n` of the list. -/
def ksaFill (M : Space) : List Nat → State → State
  | [], s => s
  | n :: ns, s => ksaFill M ns (memWrite M n (BitVec.ofNat 8 n) s)

/-- The second loop of `KSA(M)` (R102) for key length `L`: `t <- (t + M[n] + KEY[n mod L]) mod 256; swap(M, n, t)`. -/
def ksaMix (M : Space) (L : Nat) (hL : 0 < L) : List Nat → Byte → State → Except Fault State
  | [], _, s => .ok s
  | n :: ns, t, s => do
    let m ← memRead M n s
    let k ← memRead .KEY (keyIndex n L hL) s
    let t := add8 (add8 t m) k
    let s ← swap M (BitVec.ofNat 8 n) t s
    ksaMix M L hL ns t s

/-- `KSA(M)` (R102). The loop variables `n` and `t` are local to the procedure (notes/assumptions/7.md). -/
def ksa (M : Space) (L : Nat) (hL : 0 < L) (s : State) : Except Fault State :=
  ksaMix M L hL (List.range Config.permutationSize) 0
    (ksaFill M (List.range Config.permutationSize) s)

/-- The key schedules of variant `v` (R103, R122): `S` for every variant, and `S2` from the same key for RC4A. -/
def scheduleKeys (v : Variant) (L : Nat) (hL : 0 < L) (s : State) : Except Fault State := do
  let s ← ksa .S L hL s
  if v = .rc4a then ksa .S2 L hL s else return s

/-- The registers an INIT command sets after the schedule (R103). -/
def startInstance (v : Variant) (s : State) : State :=
  ((((((s.setI 0).setJ 0).setJ2 0).setPh .first).setVar v).setKeyed true)

/-- `INIT_COMMON(v, n)` (R103). A skip runs the steps of the variant just selected (D14; notes/assumptions/10.md). -/
def initCommon (v : Variant) (n : Count) (s : State) : Host.Outcome State Fault Refusal :=
  if h : s.klen.val = 0 then .next (raise .emptyKey s)
  else finish do
    let s ← scheduleKeys v s.klen.val (Nat.pos_of_ne_zero h) s
    discardSteps n (startInstance v s)

end Sys2Proof.Machine
end

