-- ==== Sys2Proof/Machine/Init.lean ====
section
/-! DEFINITION. The six INIT commands: 41_prga_rc4.md R111, 42_prga_rc4a.md R121, 43_prga_vmpc.md R131,
44_prga_rc4plus.md R141, 45_rc4drop_skip.md R150 and R155. -/

namespace Sys2Proof.Machine

/-- INIT.RC4 (R111). -/
def execInitRc4 (count : Count) (s : State) : Host.Outcome State Fault Refusal :=
  initCommon .rc4 count s

/-- INIT.RC4A (R121). -/
def execInitRc4a (count : Count) (s : State) : Host.Outcome State Fault Refusal :=
  initCommon .rc4a count s

/-- INIT.VMPC (R131). -/
def execInitVmpc (count : Count) (s : State) : Host.Outcome State Fault Refusal :=
  initCommon .vmpc count s

/-- INIT.RC4P (R141). -/
def execInitRc4p (count : Count) (s : State) : Host.Outcome State Fault Refusal :=
  initCommon .rc4p count s

/-- INIT.DROP (R150): the count is executed as given, 0 included; there is no default in the hardware. -/
def execInitDrop (count : Count) (s : State) : Host.Outcome State Fault Refusal :=
  initCommon .rc4drop count s

/-- INIT.IV (R155): the empty key is found before the IV is looked at; the tag is RC4. -/
def execInitIv (s : State) : Host.Outcome State Fault Refusal :=
  if s.klen.val = 0 then .next (raise .emptyKey s)
  else
    match ivSkip s with
    | .ok n => initCommon .rc4 (BitVec.ofNat 24 n) s
    | .error f => .fault f

end Sys2Proof.Machine
end

