-- ==== Sys2Proof/Machine/Stream.lean ====
section
/-! DEFINITION. The stepping commands: GEN, XORB, GENN (46_driver_xor.md R166, R168, R167) and DROP
(45_rc4drop_skip.md R151). -/

namespace Sys2Proof.Machine

/-- A stepping command faults with NOT_KEYED while no instance exists, whatever its operand (60_exceptions.md R192). -/
def whenKeyed (s : State) (run : Except Fault State) : Host.Outcome State Fault Refusal :=
  if s.keyed = false then .next (raise .notKeyed s) else finish run

/-- GEN (R166). -/
def execGen (s : State) : Host.Outcome State Fault Refusal :=
  whenKeyed s do
    let r ← stepCipher s
    return emit r.1 r.2

/-- XORB (R168). -/
def execXorb (byte : Byte) (s : State) : Host.Outcome State Fault Refusal :=
  whenKeyed s do
    let r ← stepCipher s
    return emit (byte ^^^ r.1) r.2

/-- GENN (R167). -/
def execGenn (count : Count) (s : State) : Host.Outcome State Fault Refusal :=
  whenKeyed s (emitSteps count s)

/-- DROP (R151). -/
def execDrop (count : Count) (s : State) : Host.Outcome State Fault Refusal :=
  whenKeyed s (discardSteps count s)

end Sys2Proof.Machine
end

