-- ==== Sys2Proof/Machine/Dispatch.lean ====
section
/-! DEFINITION. One arm per command: stage 3 of 30_encoding.md R77. Stages 1 and 2 are in Machine/Command.lean. -/

namespace Sys2Proof.Machine

def exec (i : Instr) (s : State) : Host.Outcome State Fault Refusal :=
  match i with
  | .nop => Sys2Proof.Machine.execNop s
  | .zero => Sys2Proof.Machine.execZero s
  | .kclr => Sys2Proof.Machine.execKclr s
  | .keyb byte => Sys2Proof.Machine.execKeyb byte s
  | .ivclr => Sys2Proof.Machine.execIvclr s
  | .ivb byte => Sys2Proof.Machine.execIvb byte s
  | .initRc4 count => Sys2Proof.Machine.execInitRc4 count s
  | .initRc4a count => Sys2Proof.Machine.execInitRc4a count s
  | .initVmpc count => Sys2Proof.Machine.execInitVmpc count s
  | .initRc4p count => Sys2Proof.Machine.execInitRc4p count s
  | .initDrop count => Sys2Proof.Machine.execInitDrop count s
  | .initIv => Sys2Proof.Machine.execInitIv s
  | .gen => Sys2Proof.Machine.execGen s
  | .xorb byte => Sys2Proof.Machine.execXorb byte s
  | .genn count => Sys2Proof.Machine.execGenn count s
  | .drop count => Sys2Proof.Machine.execDrop count s

end Sys2Proof.Machine
end

