-- ==== Sys2Proof/Machine/Command.lean ====
section
/-! DEFINITION. The execution of one command word in its three stages (30_encoding.md R77) and the service of the host's
next input (00_scope.md R6, R8). -/

namespace Sys2Proof.Machine

/-- The one word a faulted block executes (R77, R197). -/
def zeroWord : Word := 0x01000000

/-- One command word (R77). Stage 1: a faulted block executes ZERO only and ignores every other word. Stage 2: an illegal
word raises ILLEGAL_CMD. Stage 3: the rule of the command. -/
def runCommand (cw : Word) (s : State) : Host.Outcome State Fault Refusal :=
  if s.ecode ≠ .none then
    if cw = zeroWord then exec .zero s else .next s
  else
    match decode cw with
    | .error _ => .next (raise .illegalCmd s)
    | .ok i => exec i s

/-- Take the host's next input and serve it to completion (R6, R7). With nothing presented the block is idle and holds its
state (60_exceptions.md R203; notes/assumptions/2.md). A reset is served as R220 says (notes/assumptions/3.md). -/
def serve (s : State) : Host.Outcome State Fault Refusal :=
  match s.port with
  | [] => .next s
  | .command cw :: rest => runCommand cw (s.setPort rest)
  | .reset :: rest => .next (applyReset (s.setPort rest))

/-- The host presents an instruction's word before the inputs it already has in hand. -/
def placeWord (cw : Word) (s : State) : State :=
  s.setPort (.command cw :: s.port)

end Sys2Proof.Machine
end

