-- ==== Sys2Proof/Machine/Step.lean ====
section
/-! DEFINITION. The step of the machine: the core takes the next input and serves it to completion (00_scope.md R6). -/

namespace Sys2Proof.Machine

/-- One step (R6, R7). -/
def step (s : State) : Host.Outcome State Fault Refusal := serve s

/-- The state in which the host presents, as its very next input, the word whose low `nbits` bits are those of `w`. -/
def State.withFetchWord (s : State) (nbits w : Nat) : State := placeWord (tableWord nbits w) s

end Sys2Proof.Machine
end

