-- ==== Sys2Proof/Machine/Pseudo.lean ====
section
/-! DEFINITION. The host's side of the command set: the pseudo-instructions of 30_encoding.md R80 with the assembler default
of R79, the source's API as command sequences (R81, R82), and the execution of a command sequence one command after
another (00_scope.md R7). None of it is hardware: every pseudo-instruction is a list of commands. -/

namespace Sys2Proof.Machine

/-- The INIT command of a variant (R26, R81). -/
def initOf (v : Variant) (count : Count) : Instr :=
  match v with
  | .rc4 => .initRc4 count
  | .rc4a => .initRc4a count
  | .vmpc => .initVmpc count
  | .rc4p => .initRc4p count
  | .rc4drop => .initDrop count

/-- `KEY b0, ..., bm` (R80). -/
def pseudoKey (bytes : List Byte) : List Instr := .kclr :: bytes.map .keyb

/-- `IVSET b0, ..., bm` (R80); the list may be empty. -/
def pseudoIvset (bytes : List Byte) : List Instr := .ivclr :: bytes.map .ivb

/-- `ENCDEC b0, ..., bm` (R80); with no byte it is no command at all. -/
def pseudoEncdec (bytes : List Byte) : List Instr := bytes.map .xorb

/-- `GENERATE n` (R80). -/
def pseudoGenerate (n : Count) : List Instr := [.genn n]

/-- The skip an assembler supplies when the operand of a format C INIT command is left out (R79). -/
def assemblerSkip : Variant → Count
  | .rc4drop => BitVec.ofNat 24 Config.assemblerDropSkip
  | _ => 0

/-- An INIT command written without its operand (R79, R80). -/
def pseudoInit (v : Variant) : List Instr := [initOf v (assemblerSkip v)]

/-- The constructor `X(key, skip)` of the source's class API (R81). -/
def apiConstruct (v : Variant) (key : List Byte) (skip : Count) : List Instr :=
  pseudoKey key ++ [initOf v skip]

/-- The source's function API `rc4(key, input_bytes, initialization_vector)` (R82). -/
def apiRc4 (key input iv : List Byte) : List Instr :=
  pseudoKey key ++ pseudoIvset iv ++ [.initIv] ++ pseudoEncdec input

/-- The host's inputs that present a command sequence (R8). -/
def present (is : List Instr) : List HostInput := is.map fun i => .command (encode i)

/-- Commands executed one after another on a block that is not faulted, each to completion (R7), stopping where the model
stops. -/
def execAll : List Instr → State → Host.Outcome State Fault Refusal
  | [], s => .next s
  | i :: is, s =>
    match exec i s with
    | .next t => execAll is t
    | .fault f => .fault f
    | .refused r => .refused r

end Sys2Proof.Machine
end

