-- ==== Sys2Proof/Safety.lean ====
section
/-! DEFINITION. What claims about the block are stated in: the invariant of its states (10_state.md R38, R39), when an
instance can be stepped, what a good run is (70 R230), and the tables and numbers of the spec as plain functions. -/

namespace Sys2Proof.Safety

open Sys2Proof.Machine

/-- Every index 0 to 255 of the memory has been written. -/
def fullTable (m : Memory) : Bool :=
  (List.range Config.permutationSize).all fun a => (Memory.read a m).isSome

/-- The memory holds a permutation of 0 to 255 (R38): every index holds a value and no value occurs twice. -/
def isPermutation (m : Memory) : Bool :=
  fullTable m && decide (((List.range Config.permutationSize).map fun a => Memory.read a m).Nodup)

/-- Each of `KEY[0] .. KEY[KLEN-1]` has been written (R35, R39). -/
def keyLoaded (s : State) : Bool :=
  (List.range s.klen.val).all fun a => (Memory.read a s.KEY).isSome

/-- Each of `IV[0] .. IV[IVLEN-1]` has been written (R36, R39). -/
def ivLoaded (s : State) : Bool :=
  (List.range s.ivlen.val).all fun a => (Memory.read a s.IV).isSome

/-- One memory is in canonical form and lists no index outside its space (R54). -/
def canonicalMemory (M : Space) (s : State) : Bool :=
  Memory.wf (s.memory M) && Memory.within M.size (s.memory M)

/-- All four memories are. -/
def canonical (s : State) : Bool :=
  canonicalMemory .S s && canonicalMemory .S2 s && canonicalMemory .KEY s && canonicalMemory .IV s

/-- What holds of the state between commands in every run from reset (R38, R39, R32). -/
structure Inv (s : State) : Prop where
  /-- The memories keep their canonical form. -/
  canon : canonical s = true
  /-- The key bytes a key schedule may read are there. -/
  key : keyLoaded s = true
  /-- The IV bytes INIT.IV may read are there. -/
  iv : ivLoaded s = true
  /-- CNT is 0 before and after every command (R32). -/
  counter : s.cnt = 0
  /-- With `KEYED = 1`, `S` is a permutation (R38). -/
  permS : s.keyed = true → isPermutation s.S = true
  /-- With `KEYED = 1` and `VAR = RC4A`, so is `S2` (R38). -/
  permS2 : s.keyed = true → s.var = .rc4a → isPermutation s.S2 = true

/-- An instance exists and the tables its steps read have been written. -/
def usable (s : State) : Bool :=
  s.keyed && fullTable s.S && (decide (s.var ≠ .rc4a) || fullTable s.S2)

/-- Two blocks are in the same cipher state (46_driver_xor.md R169 b): they agree on everything a step of the instance reads.
`j2`, `PH` and `S2` are read by RC4A only (R23, R24, R34), so for the other variants they may differ. -/
def sameCipher (s s' : State) : Prop :=
  s'.var = s.var ∧ s'.keyed = s.keyed ∧ s'.i = s.i ∧ s'.j = s.j ∧ s'.S = s.S ∧
    (s.var = .rc4a → s'.j2 = s.j2 ∧ s'.ph = s.ph ∧ s'.S2 = s.S2)

/-- A run is over and good (R230): the host has nothing left to present and the block is not faulted. -/
def goodEnd (s : State) : Bool :=
  decide (s.port = []) && decide (s.ecode = .none)

/-- The six INIT commands. -/
def isInit : Instr → Bool
  | .initRc4 _ | .initRc4a _ | .initVmpc _ | .initRc4p _ | .initDrop _ | .initIv => true
  | .nop | .zero | .kclr | .keyb _ | .ivclr | .ivb _ | .gen | .xorb _ | .genn _ | .drop _ => false

/-- The four stepping commands. -/
def isStepping : Instr → Bool
  | .gen | .xorb _ | .genn _ | .drop _ => true
  | .nop | .zero | .kclr | .keyb _ | .ivclr | .ivb _ => false
  | .initRc4 _ | .initRc4a _ | .initVmpc _ | .initRc4p _ | .initDrop _ | .initIv => false

/-- How many bytes a command appends to OUT when an instance exists (R37). -/
def emitted : Instr → Nat
  | .gen | .xorb _ => 1
  | .genn n => n.toNat
  | .drop _ | .nop | .zero | .kclr | .keyb _ | .ivclr | .ivb _ => 0
  | .initRc4 _ | .initRc4a _ | .initVmpc _ | .initRc4p _ | .initDrop _ | .initIv => 0

/-- A table with the entries at `a` and `b` exchanged (R12). -/
def exchange (f : Byte → Byte) (a b : Byte) : Byte → Byte :=
  fun x => if x = a then f b else if x = b then f a else f x

/-- The second loop of the key schedule over a table held as a function (R102). -/
def ksaTableFrom (key : Nat → Byte) (L : Nat) : List Nat → Byte → (Byte → Byte) → Byte → Byte
  | [], _, f => f
  | n :: ns, t, f =>
    ksaTableFrom key L ns (t + f (BitVec.ofNat 8 n) + key (n % L))
      (exchange f (BitVec.ofNat 8 n) (t + f (BitVec.ofNat 8 n) + key (n % L)))

/-- The key schedule of R102 as a function from key bytes and key length to the resulting table. -/
def ksaTable (key : Nat → Byte) (L : Nat) : Byte → Byte :=
  ksaTableFrom key L (List.range 256) 0 fun n => n

/-- The skip of R154 for the IV bytes `iv 0, ..., iv (len - 1)`. -/
def ivSkipNumber (iv : Nat → Byte) (len : Nat) : Nat :=
  if len = 0 then 0
  else (510 + ((List.range len).map fun k => (iv k).toNat * 2 ^ k).sum) % 65536

end Sys2Proof.Safety
end

