-- ==== Sys2Proof/Certificates/Slice0/Obligations.lean ====
section
/-! DEFINITION. The statements for the provers, from the numbered rules of spec/. -/

open Sys2Proof Sys2Proof.Machine Sys2Proof.Safety

/-! ### Encoding -/

/-- R70 to R75, both directions of the command map: the decoder reads back every operand of every command's word. -/
def Obligations.EncodedCommandDecodesToItself : Prop :=
  ∀ i : Instr, i.wellFormed = true → decode (encode i) = .ok i

/-- R71 to R75: a word that decodes is the word of the command it decodes to, so no bit of it is dropped. -/
def Obligations.DecodedWordEncodesToItself : Prop :=
  ∀ (cw : Word) (i : Instr), decode cw = .ok i → encode i = cw

/-- R76: the decoder accepts a word exactly when the word belongs to a row of the opcode map by match and mask. -/
def Obligations.DecoderAcceptsExactlyTheLegalWords : Prop :=
  ∀ cw : Word, (∃ i, decode cw = .ok i) ↔ wordLegal cw = true

/-- The map of R75 with the fields of R71 to R73, each command's word as the rules of the commands write it: the opcode
constant, with the operand in the low bits. -/
def Obligations.CommandWordsFollowTheMap : Prop :=
  (encode .nop = 0x00000000 ∧ encode .zero = 0x01000000 ∧ encode .kclr = 0x08000000 ∧ encode .ivclr = 0x0A000000 ∧
    encode .initIv = 0x15000000 ∧ encode .gen = 0x20000000) ∧
  (∀ b : Byte, encode (.keyb b) = 0x09000000 ||| b.setWidth 32 ∧ encode (.ivb b) = 0x0B000000 ||| b.setWidth 32 ∧
    encode (.xorb b) = 0x21000000 ||| b.setWidth 32) ∧
  (∀ c : Count, encode (.initRc4 c) = 0x10000000 ||| c.setWidth 32 ∧
    encode (.initRc4a c) = 0x11000000 ||| c.setWidth 32 ∧ encode (.initVmpc c) = 0x12000000 ||| c.setWidth 32 ∧
    encode (.initRc4p c) = 0x13000000 ||| c.setWidth 32 ∧ encode (.initDrop c) = 0x14000000 ||| c.setWidth 32 ∧
    encode (.genn c) = 0x22000000 ||| c.setWidth 32 ∧ encode (.drop c) = 0x23000000 ||| c.setWidth 32)

/-- R75, a sanity statement: one word of each format and group, written out from the map. -/
def Obligations.SampleWordsDecodeByTheMap : Prop :=
  decode 0x01000000 = .ok .zero ∧ decode 0x0900006B = .ok (.keyb 0x6B) ∧ decode 0x0B000012 = .ok (.ivb 0x12) ∧
  decode 0x110004D2 = .ok (.initRc4a 1234) ∧ decode 0x15000000 = .ok .initIv ∧
  decode 0x21000074 = .ok (.xorb 0x74) ∧ decode 0x22000003 = .ok (.genn 3) ∧
  decode 0xFFFFFFFF = .error .unassignedOpcode ∧ decode 0x09000100 = .error .nonZeroField

/-! ### One command word -/

/-- R77, its three stages: the step takes the host's next word; a faulted block executes ZERO alone and ignores every other
word; an illegal word sets ILLEGAL_CMD and does nothing else; a legal word runs the rule of its command. -/
def Obligations.StepRunsTheDecodedCommand : Prop :=
  ∀ (s : State) (cw : Word) (rest : List HostInput), s.port = .command cw :: rest →
    (s.ecode ≠ .none → cw = 0x01000000 → step s = exec .zero { s with port := rest }) ∧
    (s.ecode ≠ .none → cw ≠ 0x01000000 → step s = .next { s with port := rest }) ∧
    (s.ecode = .none → wordLegal cw = false → step s = .next { s with port := rest, ecode := .illegalCmd }) ∧
    (s.ecode = .none → ∀ i, decode cw = .ok i → step s = exec i { s with port := rest })

/-- The model's own reading (notes/assumptions/2.md and 3.md): with nothing presented the block holds its state (R203);
a reset gives the state of R39, and the inputs still to come stay with the host. -/
def Obligations.IdleAndResetSteps : Prop :=
  (∀ s : State, s.port = [] → step s = .next s) ∧
  (∀ (s : State) (rest : List HostInput), s.port = .reset :: rest → step s = .next { State.reset with port := rest })

/-- R39, the column "after reset": every register is 0, no memory entry holds a value, OUT is empty. -/
def Obligations.ResetLeavesTheResetState : Prop :=
  State.reset.i = 0 ∧ State.reset.j = 0 ∧ State.reset.j2 = 0 ∧ State.reset.ph = .first ∧ State.reset.var = .rc4 ∧
  State.reset.keyed = false ∧ State.reset.ecode = .none ∧ State.reset.klen = 0 ∧ State.reset.ivlen = 0 ∧
  State.reset.cnt = 0 ∧ State.reset.status = 0 ∧ State.reset.out = [] ∧
  ∀ (M : Space) (a : Nat), Memory.read a (State.reset.memory M) = none

/-- R29: `STATUS[7:4] = ECODE`, `STATUS[3:1] = VAR`, `STATUS[0] = KEYED`, with the numbers of R26 and R28. -/
def Obligations.StatusShowsFaultVariantKeyed : Prop :=
  (∀ s : State, s.status.extractLsb' 4 4 = s.ecode.code ∧ s.status.extractLsb' 1 3 = s.var.code ∧
    s.status.extractLsb' 0 1 = BitVec.ofBool s.keyed) ∧
  [ECode.none, .emptyKey, .notKeyed, .illegalCmd].map ECode.code = [0, 1, 2, 3] ∧
  [Variant.rc4, .rc4a, .vmpc, .rc4p, .rc4drop].map Variant.code = [0, 1, 2, 3, 4]

/-! ### Control and buffers -/

/-- R180: NOP has no effect. -/
def Obligations.NopHasNoEffect : Prop :=
  ∀ s : State, exec .nop s = .next s

/-- R181: ZERO sets every register and every entry of the four memories to 0, clears the fault, and leaves OUT. -/
def Obligations.ZeroErasesEverything : Prop :=
  ∀ s : State, ∃ t, exec .zero s = .next t ∧
    t.i = 0 ∧ t.j = 0 ∧ t.j2 = 0 ∧ t.ph = .first ∧ t.var = .rc4 ∧ t.keyed = false ∧ t.ecode = .none ∧
    t.klen = 0 ∧ t.ivlen = 0 ∧ t.cnt = 0 ∧ t.status = 0 ∧ t.out = s.out ∧ t.port = s.port ∧
    ∀ (M : Space) (a : Nat), Memory.read a (t.memory M) = if a < M.size then some 0 else none

/-- R100: KCLR sets KLEN to 0 and changes nothing else. -/
def Obligations.KclrEmptiesTheKeyBuffer : Prop :=
  ∀ s : State, exec .kclr s = .next { s with klen := 0 }

/-- R152: IVCLR sets IVLEN to 0 and changes nothing else. -/
def Obligations.IvclrEmptiesTheIvBuffer : Prop :=
  ∀ s : State, exec .ivclr s = .next { s with ivlen := 0 }

/-- R101: KEYB stores its byte at `KEY[KLEN]` and advances KLEN while fewer than 256 bytes are held; a byte past the 256th is
ignored. -/
def Obligations.KeybAppendsOneKeyByte : Prop :=
  ∀ (s : State) (byte : Byte),
    (s.klen.val < 256 → ∃ t, exec (.keyb byte) s = .next t ∧ t.klen.val = s.klen.val + 1 ∧
      Memory.read s.klen.val t.KEY = some byte ∧
      (∀ a, a ≠ s.klen.val → Memory.read a t.KEY = Memory.read a s.KEY) ∧
      t = { s with KEY := t.KEY, klen := t.klen }) ∧
    (s.klen.val = 256 → exec (.keyb byte) s = .next s)

/-- R153: IVB stores its byte at `IV[IVLEN]` and advances IVLEN while fewer than 16 bytes are held; a byte past the 16th is
ignored. -/
def Obligations.IvbAppendsOneIvByte : Prop :=
  ∀ (s : State) (byte : Byte),
    (s.ivlen.val < 16 → ∃ t, exec (.ivb byte) s = .next t ∧ t.ivlen.val = s.ivlen.val + 1 ∧
      Memory.read s.ivlen.val t.IV = some byte ∧
      (∀ a, a ≠ s.ivlen.val → Memory.read a t.IV = Memory.read a s.IV) ∧
      t = { s with IV := t.IV, ivlen := t.ivlen }) ∧
    (s.ivlen.val = 16 → exec (.ivb byte) s = .next s)

/-! ### Faults -/

/-- R191, R103: an INIT command on an empty key buffer records EMPTY_KEY and changes nothing else. That an empty key is a
reported fault is the spec's decision D15 (notes/assumptions/13.md). -/
def Obligations.InitOnEmptyKeyRaisesEmptyKey : Prop :=
  ∀ (i : Instr) (s : State), isInit i = true → s.klen.val = 0 → s.ecode = .none →
    exec i s = .next { s with ecode := .emptyKey }

/-- R192: a stepping command without an instance records NOT_KEYED, whatever its operand, and changes nothing else. -/
def Obligations.SteppingUnkeyedRaisesNotKeyed : Prop :=
  ∀ (i : Instr) (s : State), isStepping i = true → s.keyed = false → s.ecode = .none →
    exec i s = .next { s with ecode := .notKeyed }

/-- R190, R195: on a block that is not faulted, a command word records ILLEGAL_CMD exactly when it is illegal, EMPTY_KEY
exactly when it is an INIT command and KLEN is 0, NOT_KEYED exactly when it is a stepping command and KEYED is 0. The
EMPTY_KEY clause rests on the spec's decision D15 (notes/assumptions/13.md). -/
def Obligations.EachFaultIsRaisedExactlyWhenItsCauseHolds : Prop :=
  ∀ (s t : State) (cw : Word) (rest : List HostInput), s.port = .command cw :: rest → s.ecode = .none →
    step s = .next t →
    (t.ecode = .illegalCmd ↔ wordLegal cw = false) ∧
    (t.ecode = .emptyKey ↔ ∃ i, decode cw = .ok i ∧ isInit i = true ∧ s.klen.val = 0) ∧
    (t.ecode = .notKeyed ↔ ∃ i, decode cw = .ok i ∧ isStepping i = true ∧ s.keyed = false)

/-- R196: `raise` records its code and does nothing else, and the command word that raises a fault has changed ECODE and
nothing else when it ends. -/
def Obligations.FaultEntryWritesTheCodeOnly : Prop :=
  (∀ (code : ECode) (s : State), s.ecode = .none → raise code s = { s with ecode := code }) ∧
  (∀ (s t : State) (cw : Word) (rest : List HostInput), s.port = .command cw :: rest → s.ecode = .none →
    step s = .next t → t.ecode ≠ .none → t = { s with port := rest, ecode := t.ecode })

/-- R28: a recorded fault code is kept by every command but ZERO, also where a command's rule is run in a faulted
state. -/
def Obligations.FirstFaultCodeIsKept : Prop :=
  ∀ (i : Instr) (s t : State), exec i s = .next t → s.ecode ≠ .none → i ≠ .zero → t.ecode = s.ecode

/-- R198: a faulted block raises no further fault; it is left only by ZERO or by reset, and both end the instance and empty
the buffers. -/
def Obligations.OnlyZeroAndResetLeaveAFault : Prop :=
  ∀ s t : State, step s = .next t → s.ecode ≠ .none →
    t.ecode = s.ecode ∨
    (t.ecode = .none ∧ (∃ rest, s.port = .command 0x01000000 :: rest ∨ s.port = .reset :: rest) ∧
      t.keyed = false ∧ t.klen = 0 ∧ t.ivlen = 0)

/-! ### One step of each variant -/

/-- R110, through GEN: one step of baseline RC4, for the tags RC4 and RC4DROP. `x` is the entry at the new `i`, `y` the entry
at the new `j`, `k` the byte emitted. -/
def Obligations.GenRunsOneBaselineStep : Prop :=
  ∀ s : State, s.keyed = true → (s.var = .rc4 ∨ s.var = .rc4drop) → fullTable s.S = true →
    ∃ (t : State) (x y k : Byte), exec .gen s = .next t ∧
      Memory.read (s.i + 1).toNat s.S = some x ∧ Memory.read (s.j + x).toNat s.S = some y ∧
      Memory.read (s.i + 1).toNat t.S = some y ∧ Memory.read (s.j + x).toNat t.S = some x ∧
      (∀ a : Nat, a ≠ (s.i + 1).toNat → a ≠ (s.j + x).toNat → Memory.read a t.S = Memory.read a s.S) ∧
      Memory.read (y + x).toNat t.S = some k ∧
      t = { s with i := s.i + 1, j := s.j + x, S := t.S, out := s.out ++ [k] }

/-- R120, through GEN: one step of RC4A. In the FIRST phase the exchange is in `S` and the byte comes from `S2`; in the SECOND
phase the exchange is in `S2`, the byte comes from `S`, and `i` does not advance. -/
def Obligations.GenRunsOneRc4aStep : Prop :=
  ∀ s : State, s.keyed = true → s.var = .rc4a → fullTable s.S = true → fullTable s.S2 = true →
    (s.ph = .first → ∃ (t : State) (x y k : Byte), exec .gen s = .next t ∧
      Memory.read (s.i + 1).toNat s.S = some x ∧ Memory.read (s.j + x).toNat s.S = some y ∧
      Memory.read (s.i + 1).toNat t.S = some y ∧ Memory.read (s.j + x).toNat t.S = some x ∧
      (∀ a : Nat, a ≠ (s.i + 1).toNat → a ≠ (s.j + x).toNat → Memory.read a t.S = Memory.read a s.S) ∧
      Memory.read (y + x).toNat s.S2 = some k ∧
      t = { s with i := s.i + 1, j := s.j + x, ph := .second, S := t.S, out := s.out ++ [k] }) ∧
    (s.ph = .second → ∃ (t : State) (x y k : Byte), exec .gen s = .next t ∧
      Memory.read s.i.toNat s.S2 = some x ∧ Memory.read (s.j2 + x).toNat s.S2 = some y ∧
      Memory.read s.i.toNat t.S2 = some y ∧ Memory.read (s.j2 + x).toNat t.S2 = some x ∧
      (∀ a : Nat, a ≠ s.i.toNat → a ≠ (s.j2 + x).toNat → Memory.read a t.S2 = Memory.read a s.S2) ∧
      Memory.read (y + x).toNat s.S = some k ∧
      t = { s with j2 := s.j2 + x, ph := .first, S2 := t.S2, out := s.out ++ [k] })

/-- R130, through GEN: one step of VMPC. The byte is read before the two writes and `i` advances last. -/
def Obligations.GenRunsOneVmpcStep : Prop :=
  ∀ s : State, s.keyed = true → s.var = .vmpc → fullTable s.S = true →
    ∃ (t : State) (a j' b c k : Byte), exec .gen s = .next t ∧
      Memory.read s.i.toNat s.S = some a ∧ Memory.read (s.j + a).toNat s.S = some j' ∧
      Memory.read j'.toNat s.S = some b ∧ Memory.read b.toNat s.S = some c ∧
      Memory.read (c + 1).toNat s.S = some k ∧
      Memory.read s.i.toNat t.S = some b ∧ Memory.read j'.toNat t.S = some a ∧
      (∀ n : Nat, n ≠ s.i.toNat → n ≠ j'.toNat → Memory.read n t.S = Memory.read n s.S) ∧
      t = { s with i := s.i + 1, j := j', S := t.S, out := s.out ++ [k] }

/-- R140, through GEN: one step of RC4+, with the three-term `c` and every lookup of the output after the exchange. -/
def Obligations.GenRunsOneRc4pStep : Prop :=
  ∀ s : State, s.keyed = true → s.var = .rc4p → fullTable s.S = true →
    ∃ (t : State) (i' j' a b sv sj sw x y z : Byte), exec .gen s = .next t ∧
      i' = s.i + 1 ∧ Memory.read i'.toNat s.S = some a ∧ j' = s.j + a ∧ Memory.read j'.toNat s.S = some b ∧
      Memory.read i'.toNat t.S = some b ∧ Memory.read j'.toNat t.S = some a ∧
      (∀ n : Nat, n ≠ i'.toNat → n ≠ j'.toNat → Memory.read n t.S = Memory.read n s.S) ∧
      Memory.read ((i' <<< 5) ^^^ (j' >>> 3)).toNat t.S = some sv ∧
      Memory.read j'.toNat t.S = some sj ∧
      Memory.read ((j' <<< 5) ^^^ (i' >>> 3)).toNat t.S = some sw ∧
      Memory.read (a + b).toNat t.S = some x ∧
      Memory.read ((sv + sj + sw) ^^^ 0xAA).toNat t.S = some y ∧
      Memory.read (j' + b).toNat t.S = some z ∧
      t = { s with i := i', j := j', S := t.S, out := s.out ++ [(x + y) ^^^ z] }

/-! ### The stepping commands -/

/-- R168: XORB takes the step GEN takes from the same state and emits its data byte combined with the byte GEN emits; the
state it leaves does not depend on the data byte otherwise. Without an instance it records NOT_KEYED. -/
def Obligations.XorbCombinesWithTheGenByte : Prop :=
  (∀ (s : State) (byte : Byte), usable s = true → ∃ (t : State) (k : Byte), t.out = s.out ∧
    exec .gen s = .next { t with out := s.out ++ [k] } ∧
    exec (.xorb byte) s = .next { t with out := s.out ++ [byte ^^^ k] }) ∧
  (∀ (s : State) (byte : Byte), s.keyed = false → s.ecode = .none →
    exec (.xorb byte) s = .next { s with ecode := .notKeyed })

/-- R167: GENN emits exactly `count` bytes, in the order the steps produce them, and leaves the state `count` GEN commands
leave, with CNT at 0. Without an instance it records NOT_KEYED. -/
def Obligations.GennIsCountTimesGen : Prop :=
  (∀ (s : State) (n : Count), usable s = true → ∃ (t : State) (bs : List Byte),
    exec (.genn n) s = .next t ∧ bs.length = n.toNat ∧ t.out = s.out ++ bs ∧ t.cnt = 0 ∧
    execAll (List.replicate n.toNat .gen) s = .next { t with cnt := s.cnt }) ∧
  (∀ (s : State) (n : Count), s.keyed = false → s.ecode = .none →
    exec (.genn n) s = .next { s with ecode := .notKeyed })

/-- R151: DROP leaves the state GENN with the same operand leaves, and emits nothing. Without an instance it records
NOT_KEYED. -/
def Obligations.DropIsGennWithoutOutput : Prop :=
  (∀ (s : State) (n : Count), usable s = true → ∃ t : State,
    exec (.drop n) s = .next t ∧ t.out = s.out ∧ t.cnt = 0 ∧
    ∃ bs : List Byte, bs.length = n.toNat ∧ exec (.genn n) s = .next { t with out := s.out ++ bs }) ∧
  (∀ (s : State) (n : Count), s.keyed = false → s.ecode = .none →
    exec (.drop n) s = .next { s with ecode := .notKeyed })

/-- The frame of the stepping commands (R165): they write the cipher state, CNT and OUT; `j2`, `PH` and `S2` only for RC4A; a
table that is full stays full and a permutation stays one. -/
def Obligations.SteppingCommandsWriteCipherStateOnly : Prop :=
  ∀ (i : Instr) (s t : State), isStepping i = true → s.keyed = true → exec i s = .next t →
    t = { s with i := t.i, j := t.j, j2 := t.j2, ph := t.ph, S := t.S, S2 := t.S2, cnt := t.cnt, out := t.out } ∧
    (s.var ≠ .rc4a → t.j2 = s.j2 ∧ t.ph = s.ph ∧ t.S2 = s.S2) ∧
    (fullTable s.S = true → fullTable t.S = true) ∧ (fullTable s.S2 = true → fullTable t.S2 = true) ∧
    (isPermutation s.S = true → isPermutation t.S = true) ∧
    (isPermutation s.S2 = true → isPermutation t.S2 = true)

/-- R157, all five parts: (a) a skip is a DROP after the INIT with skip 0; (b) and (c) DROP and GENN compose; (d) GENN and DROP
leave the same state but for OUT; (e) the last bytes of a longer GENN are those of the skipped instance. Parts (a) and (e)
for VMPC with a skip other than 0 rest on the spec's decision D14 (notes/assumptions/10.md). -/
def Obligations.SkipEquivalenceAndComposition : Prop :=
  (∀ (v : Variant) (c : Count) (s : State), s.klen.val ≠ 0 → keyLoaded s = true → ∃ t u,
    exec (initOf v 0) s = .next t ∧ exec (.drop c) t = .next u ∧ exec (initOf v c) s = .next u) ∧
  (∀ (a b : Count) (s : State), usable s = true → a.toNat + b.toNat < 2 ^ 24 → ∃ t u,
    exec (.drop a) s = .next t ∧ exec (.drop b) t = .next u ∧ exec (.drop (a + b)) s = .next u ∧ u.out = s.out) ∧
  (∀ (a b : Count) (s : State), usable s = true → a.toNat + b.toNat < 2 ^ 24 → ∃ t u,
    exec (.genn a) s = .next t ∧ exec (.genn b) t = .next u ∧ exec (.genn (a + b)) s = .next u) ∧
  (∀ (a : Count) (s : State), usable s = true → ∃ t u,
    exec (.genn a) s = .next t ∧ exec (.drop a) s = .next u ∧ u = { t with out := s.out }) ∧
  (∀ (v : Variant) (c n : Count) (s : State), s.klen.val ≠ 0 → keyLoaded s = true → c.toNat + n.toNat < 2 ^ 24 →
    ∃ t u bs cs, execAll [initOf v 0, .genn (c + n)] s = .next t ∧ execAll [initOf v c, .genn n] s = .next u ∧
      t.out = s.out ++ bs ++ cs ∧ bs.length = c.toNat ∧ u.out = s.out ++ cs ∧ cs.length = n.toNat)

/-! ### INIT -/

/-- R102 and R103 with skip 0: `S` (and `S2` for RC4A) becomes the table of the key schedule, a permutation; `i`, `j`, `j2` and
PH are 0, VAR is the variant's tag, KEYED is 1; nothing else changes. That RC4A keys `S2` with the same key and that `j2`
starts at 0 is the spec's decision D13 (notes/assumptions/12.md). -/
def Obligations.InitBuildsTheKeyScheduleTable : Prop :=
  ∀ (v : Variant) (s : State) (key : Nat → Byte), s.klen.val ≠ 0 →
    (∀ n < s.klen.val, Memory.read n s.KEY = some (key n)) →
    ∃ t, exec (initOf v 0) s = .next t ∧
      (∀ a : Byte, Memory.read a.toNat t.S = some (ksaTable key s.klen.val a)) ∧ isPermutation t.S = true ∧
      (v = .rc4a → ∀ a : Byte, Memory.read a.toNat t.S2 = some (ksaTable key s.klen.val a)) ∧
      (v ≠ .rc4a → t.S2 = s.S2) ∧
      t = { s with i := 0, j := 0, j2 := 0, ph := .first, var := v, keyed := true, cnt := 0, S := t.S, S2 := t.S2 }

/-- R111, R121, R131, R141, R150 with any skip: the INIT command completes, and it leaves the state INIT with skip 0 followed
by that many discarded steps leaves. For VMPC the steps of a skip rest on the spec's decision D14
(notes/assumptions/10.md). -/
def Obligations.InitWithSkipIsInitThenDrop : Prop :=
  ∀ (v : Variant) (c : Count) (s : State), s.klen.val ≠ 0 → keyLoaded s = true →
    ∃ t u, exec (initOf v 0) s = .next t ∧ exec (.drop c) t = .next u ∧ exec (initOf v c) s = .next u ∧
      u.var = v ∧ u.keyed = true ∧ u.cnt = 0 ∧ u.out = s.out

/-- R154, R155: INIT.IV is INIT.RC4 with the skip derived from the IV buffer, 0 for an empty one. The reading of the formula
for a non-empty IV is the spec's decision D27 (notes/assumptions/11.md). -/
def Obligations.InitIvSkipsByTheIvFormula : Prop :=
  ∀ (s : State) (iv : Nat → Byte), s.klen.val ≠ 0 → keyLoaded s = true →
    (∀ k < s.ivlen.val, Memory.read k s.IV = some (iv k)) →
    ∃ t, exec .initIv s = .next t ∧
      exec (.initRc4 (BitVec.ofNat 24 (ivSkipNumber iv s.ivlen.val))) s = .next t ∧ t.var = .rc4

/-- The frame of the INIT commands (R103, R34, R35, R36): an INIT that completes leaves KEY, KLEN, IV, IVLEN, ECODE, OUT and what
the host has yet to present, and writes `S2` for RC4A only; it sets KEYED and its own tag, and CNT is 0. That `j2` starts at
0 is the spec's decision D13 (notes/assumptions/12.md). -/
def Obligations.InitLeavesBuffersAndOutput : Prop :=
  ∀ (i : Instr) (s t : State), isInit i = true → s.klen.val ≠ 0 → exec i s = .next t →
    t = { s with i := t.i, j := t.j, j2 := t.j2, ph := t.ph, var := t.var, keyed := true, cnt := 0, S := t.S, S2 := t.S2 } ∧
    ((∀ c, i ≠ .initRc4a c) → t.S2 = s.S2 ∧ t.j2 = 0 ∧ t.ph = .first) ∧
    (∀ v c, i = initOf v c → t.var = v) ∧ (i = .initIv → t.var = .rc4)

/-- R111, R150: INIT.DROP leaves what INIT.RC4 with the same count leaves but for the tag, and stepping commands then do the
same on both. -/
def Obligations.InitDropIsInitRc4ButForTheTag : Prop :=
  (∀ (c : Count) (s : State), s.klen.val ≠ 0 → keyLoaded s = true → ∃ t,
    exec (.initRc4 c) s = .next t ∧ exec (.initDrop c) s = .next { t with var := .rc4drop }) ∧
  (∀ (i : Instr) (s t : State), isStepping i = true → s.var = .rc4 → exec i s = .next t →
    exec i { s with var := .rc4drop } = .next { t with var := .rc4drop })

/-- R104 (b), (d), R42: what an INIT command leaves of the cipher state depends on the command and on the cyclic sequence of key
bytes alone, not on the instance before it. -/
def Obligations.InitDependsOnTheCyclicKeyAlone : Prop :=
  ∀ (v : Variant) (c : Count) (s s' : State), canonical s = true → canonical s' = true →
    s.klen.val ≠ 0 → s'.klen.val ≠ 0 → keyLoaded s = true → keyLoaded s' = true →
    (∀ n < 256, Memory.read (n % s.klen.val) s.KEY = Memory.read (n % s'.klen.val) s'.KEY) →
    ∃ t t', exec (initOf v c) s = .next t ∧ exec (initOf v c) s' = .next t' ∧
      t.i = t'.i ∧ t.j = t'.j ∧ t.j2 = t'.j2 ∧ t.ph = t'.ph ∧ t.var = t'.var ∧ t.keyed = t'.keyed ∧ t.S = t'.S ∧
      (v = .rc4a → t.S2 = t'.S2)

/-! ### Consequences the spec names -/

/-- R141: RC4+ and baseline RC4 go through the same `i`, `j` and `S`, step for step. -/
def Obligations.Rc4pFollowsTheBaselineTrajectory : Prop :=
  ∀ (n : Count) (s : State), usable s = true → s.var = .rc4p →
    ∃ t, exec (.drop n) s = .next t ∧ exec (.drop n) { s with var := .rc4 } = .next { t with var := .rc4 }

/-- R123, R226: from `S2 = S`, `j2 = j` in the FIRST phase, an even number of RC4A steps comes back to that, and an odd number
leaves the SECOND phase. -/
def Obligations.Rc4aPairsKeepTheTablesEqual : Prop :=
  ∀ (n : Count) (s : State), s.keyed = true → s.var = .rc4a → fullTable s.S = true → s.ph = .first →
    s.S2 = s.S → s.j2 = s.j →
    ∃ t, exec (.drop n) s = .next t ∧
      (n.toNat % 2 = 0 → t.S2 = t.S ∧ t.j2 = t.j ∧ t.ph = .first) ∧ (n.toNat % 2 = 1 → t.ph = .second)

/-- R169 (a), (b): ENCDEC emits as many bytes as it is given, and a second block in the same cipher state, given those bytes,
emits the first block's input and ends in the same cipher state. The two blocks agree on what a step reads; their buffers,
lengths, CNT, ECODE, OUT and inputs may differ, and for a variant other than RC4A also `j2`, PH and `S2`. -/
def Obligations.EncdecRoundTripOnMatchedState : Prop :=
  ∀ (P : List Byte) (s s' : State), usable s = true → sameCipher s s' →
    ∃ (t t' : State) (C : List Byte), execAll (pseudoEncdec P) s = .next t ∧ t.out = s.out ++ C ∧
      C.length = P.length ∧ execAll (pseudoEncdec C) s' = .next t' ∧ t'.out = s'.out ++ P ∧ sameCipher t t'

/-- R169 (c), R223, R225: on one block, issuing the same INIT command again (the key and the IV being kept in their buffers)
makes ENCDEC of the ciphertext emit the plaintext. -/
def Obligations.ReinitialisedBlockDecryptsItsOwnOutput : Prop :=
  ∀ (i : Instr) (P : List Byte) (s : State), isInit i = true → Inv s → s.klen.val ≠ 0 →
    ∃ (t t' : State) (C : List Byte), execAll (i :: pseudoEncdec P) s = .next t ∧ t.out = s.out ++ C ∧
      execAll (i :: pseudoEncdec C) t = .next t' ∧ t'.out = t.out ++ P

/-! ### Rules over all commands -/

/-- R27, R26: KEYED is set by every INIT command that completes and cleared by ZERO and reset; no other command writes KEYED or
VAR. -/
def Obligations.OnlyInitAndZeroWriteKeyedAndVar : Prop :=
  (∀ (i : Instr) (s t : State), exec i s = .next t →
    (isInit i = true → s.klen.val ≠ 0 → t.keyed = true) ∧ (i = .zero → t.keyed = false ∧ t.var = .rc4) ∧
    ((isInit i = false ∨ s.klen.val = 0) → i ≠ .zero → t.keyed = s.keyed ∧ t.var = s.var)) ∧
  (∀ s : State, (applyReset s).keyed = false ∧ (applyReset s).var = .rc4)

/-- R30, R31, R35, R36: KEY is written by KEYB and ZERO only and IV by IVB and ZERO only; KLEN also by KCLR and IVLEN also by
IVCLR; so a running instance never sees a key byte loaded later (R60). -/
def Obligations.OnlyBufferCommandsWriteTheBuffers : Prop :=
  ∀ (i : Instr) (s t : State), exec i s = .next t → i ≠ .zero →
    ((∀ b, i ≠ .keyb b) → t.KEY = s.KEY ∧ (i ≠ .kclr → t.klen = s.klen)) ∧
    ((∀ b, i ≠ .ivb b) → t.IV = s.IV ∧ (i ≠ .ivclr → t.ivlen = s.ivlen)) ∧
    (isInit i = false → isStepping i = false →
      t.i = s.i ∧ t.j = s.j ∧ t.j2 = s.j2 ∧ t.ph = s.ph ∧ t.S = s.S ∧ t.S2 = s.S2)

/-- R37: GEN and XORB append one byte to OUT, GENN as many as its operand, every other command none; a command that finds no
instance appends none; no command removes or changes a byte. -/
def Obligations.OutGrowsByWhatACommandEmits : Prop :=
  ∀ (i : Instr) (s t : State), exec i s = .next t →
    ∃ bs, t.out = s.out ++ bs ∧ bs.length = if s.keyed then emitted i else 0

/-- R37, R40: no command reads OUT or what the host has yet to present: from the same state with any others it does the same,
and appends the same bytes to whatever OUT holds. -/
def Obligations.NoCommandReadsOutOrTheHostsInputs : Prop :=
  ∀ (i : Instr) (s t : State) (o : List Byte) (p : List HostInput), exec i s = .next t →
    ∃ bs, t.out = s.out ++ bs ∧ t.port = s.port ∧
      exec i { s with out := o, port := p } = .next { t with out := o ++ bs, port := p }

/-- R34: `S2` is written by INIT.RC4A, by the steps of an RC4A instance and by ZERO only. -/
def Obligations.OnlyRc4aAndZeroWriteS2 : Prop :=
  ∀ (i : Instr) (s t : State), exec i s = .next t → t.S2 ≠ s.S2 →
    i = .zero ∨ (∃ c, i = .initRc4a c) ∨ (isStepping i = true ∧ s.var = .rc4a ∧ s.keyed = true)

/-! ### Every state and every run -/

/-- The invariant holds after reset. -/
def Obligations.ResetMeetsTheInvariant : Prop := Inv State.reset

/-- Every step keeps the invariant: canonical memories, loaded buffers, CNT 0, and the permutations of R38. -/
def Obligations.EveryStepKeepsTheInvariant : Prop :=
  ∀ s t : State, Inv s → step s = .next t → Inv t

/-- R39, R228, R9: a state that meets the invariant never stops: no read reaches an entry without a value, and every command
finishes. -/
def Obligations.InvariantStatesNeverStop : Prop :=
  ∀ s : State, Inv s → ∃ t, step s = .next t

/-- R38: whatever the host presents, after any number of steps from reset the machine is in a state, and whenever KEYED is 1
there, `S` is a permutation of 0 to 255, and so is `S2` when VAR is RC4A. -/
def Obligations.EveryRunKeepsThePermutations : Prop :=
  ∀ (inputs : List HostInput) (n : Nat), ∃ t : State,
    Host.Core.run Sys2Proof.core n { State.reset with port := inputs } = .next t ∧
    (t.keyed = true → isPermutation t.S = true ∧ (t.var = .rc4a → isPermutation t.S2 = true))

/-- R77, R230: a host that presents a command sequence in which no command faults gets what the rules of the commands, one after
another, give. -/
def Obligations.PresentedCommandsRunOneAfterAnother : Prop :=
  ∀ (is : List Instr) (s t : State), .zero ∉ is → s.ecode = .none → s.port = present is →
    execAll is { s with port := [] } = .next t → t.ecode = .none →
    Host.Core.run Sys2Proof.core is.length s = .next t
end

