-- ==== Sys2Proof/Laws/Memory.lean ====
section
/-! SUPPORT. The laws of one memory: read after write, and that a write keeps the canonical form. -/

namespace Sys2Proof.Machine.Memory

theorem read_write_same (a : Nat) (v : Byte) (m : Memory) : read a (write a v m) = some v := by
  induction m with
  | nil => simp [write, read]
  | cons c m ih =>
    obtain ⟨b, w⟩ := c
    by_cases h : a = b
    · simp [write, read, h]
    · by_cases hl : a < b <;> simp [write, read, h, hl, ih]

theorem read_write_other {a b : Nat} (v : Byte) (m : Memory) (h : b ≠ a) : read b (write a v m) = read b m := by
  induction m with
  | nil => simp [write, read, h]
  | cons c m ih =>
    obtain ⟨d, w⟩ := c
    by_cases hd : a = d
    · subst hd; simp [write, read, h]
    · by_cases hl : a < d <;> simp [write, read, h, hd, hl, ih]

theorem read_write (a b : Nat) (v : Byte) (m : Memory) :
    read b (write a v m) = if b = a then some v else read b m := by
  by_cases h : b = a
  · rw [if_pos h, h, read_write_same]
  · rw [if_neg h, read_write_other v m h]

theorem risesAbove_write {a c : Nat} (v : Byte) {m : Memory} (hac : c < a) (h : risesAbove c m = true) :
    risesAbove c (write a v m) = true := by
  induction m generalizing c with
  | nil => simp [write, risesAbove, hac]
  | cons d m ih =>
    obtain ⟨b, w⟩ := d
    simp only [risesAbove, Bool.and_eq_true, decide_eq_true_eq] at h
    by_cases hb : a = b
    · subst hb; simpa [write, risesAbove] using h
    · by_cases hl : a < b
      · simp [write, risesAbove, hb, hl, hac, h.2]
      · have hba : b < a := by omega
        simp [write, risesAbove, hb, hl, h.1, ih hba h.2]

/-- A write keeps the canonical form. -/
theorem wf_write (a : Nat) (v : Byte) {m : Memory} (h : wf m = true) : wf (write a v m) = true := by
  cases m with
  | nil => rfl
  | cons d m =>
    obtain ⟨b, w⟩ := d
    simp only [wf] at h
    by_cases hb : a = b
    · subst hb; simpa [write, wf] using h
    · by_cases hl : a < b
      · simp [write, wf, risesAbove, hb, hl, h]
      · have hba : b < a := by omega
        simp [write, wf, hb, hl, risesAbove_write v hba h]

/-- A write below the size of the space lists no index outside it. -/
theorem within_write {size a : Nat} (v : Byte) {m : Memory} (ha : a < size) (h : within size m = true) :
    within size (write a v m) = true := by
  induction m with
  | nil => simp [write, within, ha]
  | cons d m ih =>
    obtain ⟨b, w⟩ := d
    simp only [within, List.all_cons, Bool.and_eq_true, decide_eq_true_eq] at h ih ⊢
    by_cases hb : a = b
    · subst hb; simp [write, h]
    · by_cases hl : a < b
      · simp [write, hb, hl, ha, h.1]; simpa using h.2
      · simp only [write, hb, hl, if_false, List.all_cons, Bool.and_eq_true, decide_eq_true_eq]
        exact ⟨h.1, ih h.2⟩

theorem read_of_risesAbove {a c : Nat} {m : Memory} (h : risesAbove c m = true) (ha : a ≤ c) : read a m = none := by
  induction m generalizing c with
  | nil => rfl
  | cons d m ih =>
    obtain ⟨b, w⟩ := d
    simp only [risesAbove, Bool.and_eq_true, decide_eq_true_eq] at h
    have : a ≠ b := by omega
    simp [read, this, ih h.2 (by omega)]

/-- Canonical memories that read alike are equal lists. -/
theorem ext_of_wf {m n : Memory} (hm : wf m = true) (hn : wf n = true) (h : ∀ a, read a m = read a n) : m = n := by
  induction m generalizing n with
  | nil =>
    cases n with
    | nil => rfl
    | cons d n => have := h d.1; simp [read] at this
  | cons c m ih =>
    cases n with
    | nil => have := h c.1; simp [read] at this
    | cons d n =>
      obtain ⟨a, v⟩ := c
      obtain ⟨b, w⟩ := d
      simp only [wf] at hm hn
      have hab : a = b := by
        rcases Nat.lt_trichotomy a b with hl | he | hg
        · have := h a
          simp [read, Nat.ne_of_lt hl, read_of_risesAbove hn (Nat.le_of_lt hl)] at this
        · exact he
        · have := h b
          simp [read, Nat.ne_of_lt hg, read_of_risesAbove hm (Nat.le_of_lt hg)] at this
      subst hab
      have hvw : v = w := by simpa [read] using h a
      subst hvw
      have tail : ∀ x, read x m = read x n := fun x => by
        by_cases hx : x = a
        · subst hx; rw [read_of_risesAbove hm le_rfl, read_of_risesAbove hn le_rfl]
        · simpa [read, hx] using h x
      have wfTail : ∀ {k : Memory}, risesAbove a k = true → wf k = true := by
        intro k hk
        cases k with
        | nil => rfl
        | cons e k => simp only [risesAbove, Bool.and_eq_true] at hk; exact hk.2
      rw [ih (wfTail hm) (wfTail hn) tail]

theorem read_of_within {size a : Nat} {m : Memory} (h : within size m = true) (ha : size ≤ a) : read a m = none := by
  induction m with
  | nil => rfl
  | cons d m ih =>
    obtain ⟨b, w⟩ := d
    simp only [within, List.all_cons, Bool.and_eq_true, decide_eq_true_eq] at h
    have : a ≠ b := by omega
    simp [read, this, ih h.2]

/-! ### The erased memory -/

theorem read_map_range' (a start n : Nat) :
    read a ((List.range' start n).map fun k => (k, (0 : Byte))) = if start ≤ a ∧ a < start + n then some 0 else none := by
  induction n generalizing start with
  | zero => simp [read]
  | succ n ih =>
    simp only [List.range'_succ, List.map_cons, read, ih]
    by_cases h : a = start
    · simp [h]
    · simp only [h, if_false]; congr 1; simp only [eq_iff_iff]; omega

theorem read_zeros (a size : Nat) : read a (zeros size) = if a < size then some 0 else none := by
  rw [zeros, List.range_eq_range', read_map_range']; simp

theorem risesAbove_map_range' (c start n : Nat) (h : c < start) :
    risesAbove c ((List.range' start n).map fun k => (k, (0 : Byte))) = true := by
  induction n generalizing c start with
  | zero => rfl
  | succ n ih => simpa [List.range'_succ, risesAbove, h] using ih start (start + 1) (by omega)

theorem wf_zeros (size : Nat) : wf (zeros size) = true := by
  rw [zeros, List.range_eq_range']
  cases size with
  | zero => rfl
  | succ n => simpa [List.range'_succ, wf] using risesAbove_map_range' 0 1 n (by omega)

theorem within_zeros (size : Nat) : within size (zeros size) = true := by
  simp [within, zeros]

end Sys2Proof.Machine.Memory
end

