-- ==== Sys2Proof/Laws/State.lean ====
section
/-! SUPPORT. One lemma per field per update of the state, each true by rfl, so that no proof unfolds a record update. -/

namespace Sys2Proof.Machine.State

variable {s : State}

@[simp] theorem setI_i {v} : (s.setI v).i = v := rfl
@[simp] theorem setI_j {v} : (s.setI v).j = s.j := rfl
@[simp] theorem setI_j2 {v} : (s.setI v).j2 = s.j2 := rfl
@[simp] theorem setI_ph {v} : (s.setI v).ph = s.ph := rfl
@[simp] theorem setI_var {v} : (s.setI v).var = s.var := rfl
@[simp] theorem setI_keyed {v} : (s.setI v).keyed = s.keyed := rfl
@[simp] theorem setI_ecode {v} : (s.setI v).ecode = s.ecode := rfl
@[simp] theorem setI_klen {v} : (s.setI v).klen = s.klen := rfl
@[simp] theorem setI_ivlen {v} : (s.setI v).ivlen = s.ivlen := rfl
@[simp] theorem setI_cnt {v} : (s.setI v).cnt = s.cnt := rfl
@[simp] theorem setI_S {v} : (s.setI v).S = s.S := rfl
@[simp] theorem setI_S2 {v} : (s.setI v).S2 = s.S2 := rfl
@[simp] theorem setI_KEY {v} : (s.setI v).KEY = s.KEY := rfl
@[simp] theorem setI_IV {v} : (s.setI v).IV = s.IV := rfl
@[simp] theorem setI_out {v} : (s.setI v).out = s.out := rfl
@[simp] theorem setI_port {v} : (s.setI v).port = s.port := rfl
@[simp] theorem setI_memory {v M} : (s.setI v).memory M = s.memory M := by cases M <;> rfl
@[simp] theorem setI_self : s.setI s.i = s := rfl
@[simp] theorem setI_setI {v w} : (s.setI v).setI w = s.setI w := rfl

@[simp] theorem setJ_i {v} : (s.setJ v).i = s.i := rfl
@[simp] theorem setJ_j {v} : (s.setJ v).j = v := rfl
@[simp] theorem setJ_j2 {v} : (s.setJ v).j2 = s.j2 := rfl
@[simp] theorem setJ_ph {v} : (s.setJ v).ph = s.ph := rfl
@[simp] theorem setJ_var {v} : (s.setJ v).var = s.var := rfl
@[simp] theorem setJ_keyed {v} : (s.setJ v).keyed = s.keyed := rfl
@[simp] theorem setJ_ecode {v} : (s.setJ v).ecode = s.ecode := rfl
@[simp] theorem setJ_klen {v} : (s.setJ v).klen = s.klen := rfl
@[simp] theorem setJ_ivlen {v} : (s.setJ v).ivlen = s.ivlen := rfl
@[simp] theorem setJ_cnt {v} : (s.setJ v).cnt = s.cnt := rfl
@[simp] theorem setJ_S {v} : (s.setJ v).S = s.S := rfl
@[simp] theorem setJ_S2 {v} : (s.setJ v).S2 = s.S2 := rfl
@[simp] theorem setJ_KEY {v} : (s.setJ v).KEY = s.KEY := rfl
@[simp] theorem setJ_IV {v} : (s.setJ v).IV = s.IV := rfl
@[simp] theorem setJ_out {v} : (s.setJ v).out = s.out := rfl
@[simp] theorem setJ_port {v} : (s.setJ v).port = s.port := rfl
@[simp] theorem setJ_memory {v M} : (s.setJ v).memory M = s.memory M := by cases M <;> rfl
@[simp] theorem setJ_self : s.setJ s.j = s := rfl
@[simp] theorem setJ_setJ {v w} : (s.setJ v).setJ w = s.setJ w := rfl

@[simp] theorem setJ2_i {v} : (s.setJ2 v).i = s.i := rfl
@[simp] theorem setJ2_j {v} : (s.setJ2 v).j = s.j := rfl
@[simp] theorem setJ2_j2 {v} : (s.setJ2 v).j2 = v := rfl
@[simp] theorem setJ2_ph {v} : (s.setJ2 v).ph = s.ph := rfl
@[simp] theorem setJ2_var {v} : (s.setJ2 v).var = s.var := rfl
@[simp] theorem setJ2_keyed {v} : (s.setJ2 v).keyed = s.keyed := rfl
@[simp] theorem setJ2_ecode {v} : (s.setJ2 v).ecode = s.ecode := rfl
@[simp] theorem setJ2_klen {v} : (s.setJ2 v).klen = s.klen := rfl
@[simp] theorem setJ2_ivlen {v} : (s.setJ2 v).ivlen = s.ivlen := rfl
@[simp] theorem setJ2_cnt {v} : (s.setJ2 v).cnt = s.cnt := rfl
@[simp] theorem setJ2_S {v} : (s.setJ2 v).S = s.S := rfl
@[simp] theorem setJ2_S2 {v} : (s.setJ2 v).S2 = s.S2 := rfl
@[simp] theorem setJ2_KEY {v} : (s.setJ2 v).KEY = s.KEY := rfl
@[simp] theorem setJ2_IV {v} : (s.setJ2 v).IV = s.IV := rfl
@[simp] theorem setJ2_out {v} : (s.setJ2 v).out = s.out := rfl
@[simp] theorem setJ2_port {v} : (s.setJ2 v).port = s.port := rfl
@[simp] theorem setJ2_memory {v M} : (s.setJ2 v).memory M = s.memory M := by cases M <;> rfl
@[simp] theorem setJ2_self : s.setJ2 s.j2 = s := rfl
@[simp] theorem setJ2_setJ2 {v w} : (s.setJ2 v).setJ2 w = s.setJ2 w := rfl

@[simp] theorem setPh_i {v} : (s.setPh v).i = s.i := rfl
@[simp] theorem setPh_j {v} : (s.setPh v).j = s.j := rfl
@[simp] theorem setPh_j2 {v} : (s.setPh v).j2 = s.j2 := rfl
@[simp] theorem setPh_ph {v} : (s.setPh v).ph = v := rfl
@[simp] theorem setPh_var {v} : (s.setPh v).var = s.var := rfl
@[simp] theorem setPh_keyed {v} : (s.setPh v).keyed = s.keyed := rfl
@[simp] theorem setPh_ecode {v} : (s.setPh v).ecode = s.ecode := rfl
@[simp] theorem setPh_klen {v} : (s.setPh v).klen = s.klen := rfl
@[simp] theorem setPh_ivlen {v} : (s.setPh v).ivlen = s.ivlen := rfl
@[simp] theorem setPh_cnt {v} : (s.setPh v).cnt = s.cnt := rfl
@[simp] theorem setPh_S {v} : (s.setPh v).S = s.S := rfl
@[simp] theorem setPh_S2 {v} : (s.setPh v).S2 = s.S2 := rfl
@[simp] theorem setPh_KEY {v} : (s.setPh v).KEY = s.KEY := rfl
@[simp] theorem setPh_IV {v} : (s.setPh v).IV = s.IV := rfl
@[simp] theorem setPh_out {v} : (s.setPh v).out = s.out := rfl
@[simp] theorem setPh_port {v} : (s.setPh v).port = s.port := rfl
@[simp] theorem setPh_memory {v M} : (s.setPh v).memory M = s.memory M := by cases M <;> rfl
@[simp] theorem setPh_self : s.setPh s.ph = s := rfl
@[simp] theorem setPh_setPh {v w} : (s.setPh v).setPh w = s.setPh w := rfl

@[simp] theorem setVar_i {v} : (s.setVar v).i = s.i := rfl
@[simp] theorem setVar_j {v} : (s.setVar v).j = s.j := rfl
@[simp] theorem setVar_j2 {v} : (s.setVar v).j2 = s.j2 := rfl
@[simp] theorem setVar_ph {v} : (s.setVar v).ph = s.ph := rfl
@[simp] theorem setVar_var {v} : (s.setVar v).var = v := rfl
@[simp] theorem setVar_keyed {v} : (s.setVar v).keyed = s.keyed := rfl
@[simp] theorem setVar_ecode {v} : (s.setVar v).ecode = s.ecode := rfl
@[simp] theorem setVar_klen {v} : (s.setVar v).klen = s.klen := rfl
@[simp] theorem setVar_ivlen {v} : (s.setVar v).ivlen = s.ivlen := rfl
@[simp] theorem setVar_cnt {v} : (s.setVar v).cnt = s.cnt := rfl
@[simp] theorem setVar_S {v} : (s.setVar v).S = s.S := rfl
@[simp] theorem setVar_S2 {v} : (s.setVar v).S2 = s.S2 := rfl
@[simp] theorem setVar_KEY {v} : (s.setVar v).KEY = s.KEY := rfl
@[simp] theorem setVar_IV {v} : (s.setVar v).IV = s.IV := rfl
@[simp] theorem setVar_out {v} : (s.setVar v).out = s.out := rfl
@[simp] theorem setVar_port {v} : (s.setVar v).port = s.port := rfl
@[simp] theorem setVar_memory {v M} : (s.setVar v).memory M = s.memory M := by cases M <;> rfl
@[simp] theorem setVar_self : s.setVar s.var = s := rfl
@[simp] theorem setVar_setVar {v w} : (s.setVar v).setVar w = s.setVar w := rfl

@[simp] theorem setKeyed_i {v} : (s.setKeyed v).i = s.i := rfl
@[simp] theorem setKeyed_j {v} : (s.setKeyed v).j = s.j := rfl
@[simp] theorem setKeyed_j2 {v} : (s.setKeyed v).j2 = s.j2 := rfl
@[simp] theorem setKeyed_ph {v} : (s.setKeyed v).ph = s.ph := rfl
@[simp] theorem setKeyed_var {v} : (s.setKeyed v).var = s.var := rfl
@[simp] theorem setKeyed_keyed {v} : (s.setKeyed v).keyed = v := rfl
@[simp] theorem setKeyed_ecode {v} : (s.setKeyed v).ecode = s.ecode := rfl
@[simp] theorem setKeyed_klen {v} : (s.setKeyed v).klen = s.klen := rfl
@[simp] theorem setKeyed_ivlen {v} : (s.setKeyed v).ivlen = s.ivlen := rfl
@[simp] theorem setKeyed_cnt {v} : (s.setKeyed v).cnt = s.cnt := rfl
@[simp] theorem setKeyed_S {v} : (s.setKeyed v).S = s.S := rfl
@[simp] theorem setKeyed_S2 {v} : (s.setKeyed v).S2 = s.S2 := rfl
@[simp] theorem setKeyed_KEY {v} : (s.setKeyed v).KEY = s.KEY := rfl
@[simp] theorem setKeyed_IV {v} : (s.setKeyed v).IV = s.IV := rfl
@[simp] theorem setKeyed_out {v} : (s.setKeyed v).out = s.out := rfl
@[simp] theorem setKeyed_port {v} : (s.setKeyed v).port = s.port := rfl
@[simp] theorem setKeyed_memory {v M} : (s.setKeyed v).memory M = s.memory M := by cases M <;> rfl
@[simp] theorem setKeyed_self : s.setKeyed s.keyed = s := rfl
@[simp] theorem setKeyed_setKeyed {v w} : (s.setKeyed v).setKeyed w = s.setKeyed w := rfl

@[simp] theorem setEcode_i {v} : (s.setEcode v).i = s.i := rfl
@[simp] theorem setEcode_j {v} : (s.setEcode v).j = s.j := rfl
@[simp] theorem setEcode_j2 {v} : (s.setEcode v).j2 = s.j2 := rfl
@[simp] theorem setEcode_ph {v} : (s.setEcode v).ph = s.ph := rfl
@[simp] theorem setEcode_var {v} : (s.setEcode v).var = s.var := rfl
@[simp] theorem setEcode_keyed {v} : (s.setEcode v).keyed = s.keyed := rfl
@[simp] theorem setEcode_ecode {v} : (s.setEcode v).ecode = v := rfl
@[simp] theorem setEcode_klen {v} : (s.setEcode v).klen = s.klen := rfl
@[simp] theorem setEcode_ivlen {v} : (s.setEcode v).ivlen = s.ivlen := rfl
@[simp] theorem setEcode_cnt {v} : (s.setEcode v).cnt = s.cnt := rfl
@[simp] theorem setEcode_S {v} : (s.setEcode v).S = s.S := rfl
@[simp] theorem setEcode_S2 {v} : (s.setEcode v).S2 = s.S2 := rfl
@[simp] theorem setEcode_KEY {v} : (s.setEcode v).KEY = s.KEY := rfl
@[simp] theorem setEcode_IV {v} : (s.setEcode v).IV = s.IV := rfl
@[simp] theorem setEcode_out {v} : (s.setEcode v).out = s.out := rfl
@[simp] theorem setEcode_port {v} : (s.setEcode v).port = s.port := rfl
@[simp] theorem setEcode_memory {v M} : (s.setEcode v).memory M = s.memory M := by cases M <;> rfl
@[simp] theorem setEcode_self : s.setEcode s.ecode = s := rfl
@[simp] theorem setEcode_setEcode {v w} : (s.setEcode v).setEcode w = s.setEcode w := rfl

@[simp] theorem setKlen_i {v} : (s.setKlen v).i = s.i := rfl
@[simp] theorem setKlen_j {v} : (s.setKlen v).j = s.j := rfl
@[simp] theorem setKlen_j2 {v} : (s.setKlen v).j2 = s.j2 := rfl
@[simp] theorem setKlen_ph {v} : (s.setKlen v).ph = s.ph := rfl
@[simp] theorem setKlen_var {v} : (s.setKlen v).var = s.var := rfl
@[simp] theorem setKlen_keyed {v} : (s.setKlen v).keyed = s.keyed := rfl
@[simp] theorem setKlen_ecode {v} : (s.setKlen v).ecode = s.ecode := rfl
@[simp] theorem setKlen_klen {v} : (s.setKlen v).klen = v := rfl
@[simp] theorem setKlen_ivlen {v} : (s.setKlen v).ivlen = s.ivlen := rfl
@[simp] theorem setKlen_cnt {v} : (s.setKlen v).cnt = s.cnt := rfl
@[simp] theorem setKlen_S {v} : (s.setKlen v).S = s.S := rfl
@[simp] theorem setKlen_S2 {v} : (s.setKlen v).S2 = s.S2 := rfl
@[simp] theorem setKlen_KEY {v} : (s.setKlen v).KEY = s.KEY := rfl
@[simp] theorem setKlen_IV {v} : (s.setKlen v).IV = s.IV := rfl
@[simp] theorem setKlen_out {v} : (s.setKlen v).out = s.out := rfl
@[simp] theorem setKlen_port {v} : (s.setKlen v).port = s.port := rfl
@[simp] theorem setKlen_memory {v M} : (s.setKlen v).memory M = s.memory M := by cases M <;> rfl
@[simp] theorem setKlen_self : s.setKlen s.klen = s := rfl
@[simp] theorem setKlen_setKlen {v w} : (s.setKlen v).setKlen w = s.setKlen w := rfl

@[simp] theorem setIvlen_i {v} : (s.setIvlen v).i = s.i := rfl
@[simp] theorem setIvlen_j {v} : (s.setIvlen v).j = s.j := rfl
@[simp] theorem setIvlen_j2 {v} : (s.setIvlen v).j2 = s.j2 := rfl
@[simp] theorem setIvlen_ph {v} : (s.setIvlen v).ph = s.ph := rfl
@[simp] theorem setIvlen_var {v} : (s.setIvlen v).var = s.var := rfl
@[simp] theorem setIvlen_keyed {v} : (s.setIvlen v).keyed = s.keyed := rfl
@[simp] theorem setIvlen_ecode {v} : (s.setIvlen v).ecode = s.ecode := rfl
@[simp] theorem setIvlen_klen {v} : (s.setIvlen v).klen = s.klen := rfl
@[simp] theorem setIvlen_ivlen {v} : (s.setIvlen v).ivlen = v := rfl
@[simp] theorem setIvlen_cnt {v} : (s.setIvlen v).cnt = s.cnt := rfl
@[simp] theorem setIvlen_S {v} : (s.setIvlen v).S = s.S := rfl
@[simp] theorem setIvlen_S2 {v} : (s.setIvlen v).S2 = s.S2 := rfl
@[simp] theorem setIvlen_KEY {v} : (s.setIvlen v).KEY = s.KEY := rfl
@[simp] theorem setIvlen_IV {v} : (s.setIvlen v).IV = s.IV := rfl
@[simp] theorem setIvlen_out {v} : (s.setIvlen v).out = s.out := rfl
@[simp] theorem setIvlen_port {v} : (s.setIvlen v).port = s.port := rfl
@[simp] theorem setIvlen_memory {v M} : (s.setIvlen v).memory M = s.memory M := by cases M <;> rfl
@[simp] theorem setIvlen_self : s.setIvlen s.ivlen = s := rfl
@[simp] theorem setIvlen_setIvlen {v w} : (s.setIvlen v).setIvlen w = s.setIvlen w := rfl

@[simp] theorem setCnt_i {v} : (s.setCnt v).i = s.i := rfl
@[simp] theorem setCnt_j {v} : (s.setCnt v).j = s.j := rfl
@[simp] theorem setCnt_j2 {v} : (s.setCnt v).j2 = s.j2 := rfl
@[simp] theorem setCnt_ph {v} : (s.setCnt v).ph = s.ph := rfl
@[simp] theorem setCnt_var {v} : (s.setCnt v).var = s.var := rfl
@[simp] theorem setCnt_keyed {v} : (s.setCnt v).keyed = s.keyed := rfl
@[simp] theorem setCnt_ecode {v} : (s.setCnt v).ecode = s.ecode := rfl
@[simp] theorem setCnt_klen {v} : (s.setCnt v).klen = s.klen := rfl
@[simp] theorem setCnt_ivlen {v} : (s.setCnt v).ivlen = s.ivlen := rfl
@[simp] theorem setCnt_cnt {v} : (s.setCnt v).cnt = v := rfl
@[simp] theorem setCnt_S {v} : (s.setCnt v).S = s.S := rfl
@[simp] theorem setCnt_S2 {v} : (s.setCnt v).S2 = s.S2 := rfl
@[simp] theorem setCnt_KEY {v} : (s.setCnt v).KEY = s.KEY := rfl
@[simp] theorem setCnt_IV {v} : (s.setCnt v).IV = s.IV := rfl
@[simp] theorem setCnt_out {v} : (s.setCnt v).out = s.out := rfl
@[simp] theorem setCnt_port {v} : (s.setCnt v).port = s.port := rfl
@[simp] theorem setCnt_memory {v M} : (s.setCnt v).memory M = s.memory M := by cases M <;> rfl
@[simp] theorem setCnt_self : s.setCnt s.cnt = s := rfl
@[simp] theorem setCnt_setCnt {v w} : (s.setCnt v).setCnt w = s.setCnt w := rfl

@[simp] theorem setOut_i {v} : (s.setOut v).i = s.i := rfl
@[simp] theorem setOut_j {v} : (s.setOut v).j = s.j := rfl
@[simp] theorem setOut_j2 {v} : (s.setOut v).j2 = s.j2 := rfl
@[simp] theorem setOut_ph {v} : (s.setOut v).ph = s.ph := rfl
@[simp] theorem setOut_var {v} : (s.setOut v).var = s.var := rfl
@[simp] theorem setOut_keyed {v} : (s.setOut v).keyed = s.keyed := rfl
@[simp] theorem setOut_ecode {v} : (s.setOut v).ecode = s.ecode := rfl
@[simp] theorem setOut_klen {v} : (s.setOut v).klen = s.klen := rfl
@[simp] theorem setOut_ivlen {v} : (s.setOut v).ivlen = s.ivlen := rfl
@[simp] theorem setOut_cnt {v} : (s.setOut v).cnt = s.cnt := rfl
@[simp] theorem setOut_S {v} : (s.setOut v).S = s.S := rfl
@[simp] theorem setOut_S2 {v} : (s.setOut v).S2 = s.S2 := rfl
@[simp] theorem setOut_KEY {v} : (s.setOut v).KEY = s.KEY := rfl
@[simp] theorem setOut_IV {v} : (s.setOut v).IV = s.IV := rfl
@[simp] theorem setOut_out {v} : (s.setOut v).out = v := rfl
@[simp] theorem setOut_port {v} : (s.setOut v).port = s.port := rfl
@[simp] theorem setOut_memory {v M} : (s.setOut v).memory M = s.memory M := by cases M <;> rfl
@[simp] theorem setOut_self : s.setOut s.out = s := rfl
@[simp] theorem setOut_setOut {v w} : (s.setOut v).setOut w = s.setOut w := rfl

@[simp] theorem setPort_i {v} : (s.setPort v).i = s.i := rfl
@[simp] theorem setPort_j {v} : (s.setPort v).j = s.j := rfl
@[simp] theorem setPort_j2 {v} : (s.setPort v).j2 = s.j2 := rfl
@[simp] theorem setPort_ph {v} : (s.setPort v).ph = s.ph := rfl
@[simp] theorem setPort_var {v} : (s.setPort v).var = s.var := rfl
@[simp] theorem setPort_keyed {v} : (s.setPort v).keyed = s.keyed := rfl
@[simp] theorem setPort_ecode {v} : (s.setPort v).ecode = s.ecode := rfl
@[simp] theorem setPort_klen {v} : (s.setPort v).klen = s.klen := rfl
@[simp] theorem setPort_ivlen {v} : (s.setPort v).ivlen = s.ivlen := rfl
@[simp] theorem setPort_cnt {v} : (s.setPort v).cnt = s.cnt := rfl
@[simp] theorem setPort_S {v} : (s.setPort v).S = s.S := rfl
@[simp] theorem setPort_S2 {v} : (s.setPort v).S2 = s.S2 := rfl
@[simp] theorem setPort_KEY {v} : (s.setPort v).KEY = s.KEY := rfl
@[simp] theorem setPort_IV {v} : (s.setPort v).IV = s.IV := rfl
@[simp] theorem setPort_out {v} : (s.setPort v).out = s.out := rfl
@[simp] theorem setPort_port {v} : (s.setPort v).port = v := rfl
@[simp] theorem setPort_memory {v M} : (s.setPort v).memory M = s.memory M := by cases M <;> rfl
@[simp] theorem setPort_self : s.setPort s.port = s := rfl
@[simp] theorem setPort_setPort {v w} : (s.setPort v).setPort w = s.setPort w := rfl

@[simp] theorem setMemory_i {M m} : (s.setMemory M m).i = s.i := by cases M <;> rfl
@[simp] theorem setMemory_j {M m} : (s.setMemory M m).j = s.j := by cases M <;> rfl
@[simp] theorem setMemory_j2 {M m} : (s.setMemory M m).j2 = s.j2 := by cases M <;> rfl
@[simp] theorem setMemory_ph {M m} : (s.setMemory M m).ph = s.ph := by cases M <;> rfl
@[simp] theorem setMemory_var {M m} : (s.setMemory M m).var = s.var := by cases M <;> rfl
@[simp] theorem setMemory_keyed {M m} : (s.setMemory M m).keyed = s.keyed := by cases M <;> rfl
@[simp] theorem setMemory_ecode {M m} : (s.setMemory M m).ecode = s.ecode := by cases M <;> rfl
@[simp] theorem setMemory_klen {M m} : (s.setMemory M m).klen = s.klen := by cases M <;> rfl
@[simp] theorem setMemory_ivlen {M m} : (s.setMemory M m).ivlen = s.ivlen := by cases M <;> rfl
@[simp] theorem setMemory_cnt {M m} : (s.setMemory M m).cnt = s.cnt := by cases M <;> rfl
@[simp] theorem setMemory_out {M m} : (s.setMemory M m).out = s.out := by cases M <;> rfl
@[simp] theorem setMemory_port {M m} : (s.setMemory M m).port = s.port := by cases M <;> rfl
@[simp] theorem setMemory_S_S {m} : (s.setMemory .S m).S = m := rfl
@[simp] theorem setMemory_S_S2 {m} : (s.setMemory .S m).S2 = s.S2 := rfl
@[simp] theorem setMemory_S_KEY {m} : (s.setMemory .S m).KEY = s.KEY := rfl
@[simp] theorem setMemory_S_IV {m} : (s.setMemory .S m).IV = s.IV := rfl
@[simp] theorem setMemory_S2_S {m} : (s.setMemory .S2 m).S = s.S := rfl
@[simp] theorem setMemory_S2_S2 {m} : (s.setMemory .S2 m).S2 = m := rfl
@[simp] theorem setMemory_S2_KEY {m} : (s.setMemory .S2 m).KEY = s.KEY := rfl
@[simp] theorem setMemory_S2_IV {m} : (s.setMemory .S2 m).IV = s.IV := rfl
@[simp] theorem setMemory_KEY_S {m} : (s.setMemory .KEY m).S = s.S := rfl
@[simp] theorem setMemory_KEY_S2 {m} : (s.setMemory .KEY m).S2 = s.S2 := rfl
@[simp] theorem setMemory_KEY_KEY {m} : (s.setMemory .KEY m).KEY = m := rfl
@[simp] theorem setMemory_KEY_IV {m} : (s.setMemory .KEY m).IV = s.IV := rfl
@[simp] theorem setMemory_IV_S {m} : (s.setMemory .IV m).S = s.S := rfl
@[simp] theorem setMemory_IV_S2 {m} : (s.setMemory .IV m).S2 = s.S2 := rfl
@[simp] theorem setMemory_IV_KEY {m} : (s.setMemory .IV m).KEY = s.KEY := rfl
@[simp] theorem setMemory_IV_IV {m} : (s.setMemory .IV m).IV = m := rfl
@[simp] theorem memory_S : s.memory .S = s.S := rfl
@[simp] theorem memory_S2 : s.memory .S2 = s.S2 := rfl
@[simp] theorem memory_KEY : s.memory .KEY = s.KEY := rfl
@[simp] theorem memory_IV : s.memory .IV = s.IV := rfl

@[simp] theorem setMemory_memory_same {M m} : (s.setMemory M m).memory M = m := by cases M <;> rfl

theorem setMemory_memory_other {M N m} (h : N ≠ M) : (s.setMemory M m).memory N = s.memory N := by
  cases M <;> cases N <;> first | rfl | exact absurd rfl h

/-- Updates of the observation, of the counter and of the port pass through a memory update. -/
theorem setMemory_setOut {M m v} : (s.setOut v).setMemory M m = (s.setMemory M m).setOut v := by cases M <;> rfl
theorem setMemory_setCnt {M m v} : (s.setCnt v).setMemory M m = (s.setMemory M m).setCnt v := by cases M <;> rfl
theorem setMemory_setVar {M m v} : (s.setVar v).setMemory M m = (s.setMemory M m).setVar v := by cases M <;> rfl

end Sys2Proof.Machine.State
end

