-- ==== Sys2Proof/Laws/Ops.lean ====
section
/-! SUPPORT. For each shared operation of Machine/Ops.lean one lemma that says everything it can do. -/

namespace Sys2Proof.Machine

/-! ### Sequencing -/

theorem bind_eq_ok {α β : Type} {x : Except Fault α} {f : α → Except Fault β} {b : β} :
    (x >>= f) = .ok b ↔ ∃ a, x = .ok a ∧ f a = .ok b := by
  cases x with
  | error e => simp [bind, Except.bind]
  | ok a => simp [bind, Except.bind]

@[simp] theorem ok_bind {α β : Type} {a : α} {f : α → Except Fault β} : (Except.ok a >>= f) = f a := rfl

@[simp] theorem error_bind {α β : Type} {e : Fault} {f : α → Except Fault β} :
    ((Except.error e : Except Fault α) >>= f) = .error e := rfl

@[simp] theorem pure_eq_ok {α : Type} {a : α} : (pure a : Except Fault α) = .ok a := rfl

@[simp] theorem finish_eq_next {r : Except Fault State} {t : State} : finish r = .next t ↔ r = .ok t := by
  cases r <;> simp [finish]

@[simp] theorem finish_ok {t : State} : finish (.ok t) = .next t := rfl

/-! ### Reading and writing a memory -/

theorem memRead_eq_ok {M : Space} {a : Nat} {s : State} {v : Byte} :
    memRead M a s = .ok v ↔ Memory.read a (s.memory M) = some v := by
  unfold memRead
  split <;> simp_all

theorem memRead_ok {M : Space} {a : Nat} {s : State} {v : Byte} (h : Memory.read a (s.memory M) = some v) :
    memRead M a s = .ok v := memRead_eq_ok.2 h

theorem memWrite_memory_same {M : Space} {a : Nat} {v : Byte} {s : State} :
    (memWrite M a v s).memory M = Memory.write a v (s.memory M) := by simp [memWrite]

theorem memWrite_memory_other {M N : Space} {a : Nat} {v : Byte} {s : State} (h : N ≠ M) :
    (memWrite M a v s).memory N = s.memory N := State.setMemory_memory_other h

/-- A memory with the entries at `a` and `b` exchanged, `x` and `y` being the bytes there before. -/
def exchanged (a b : Nat) (x y : Byte) (m : Memory) : Memory :=
  Memory.write b x (Memory.write a y m)

theorem memWrite_memWrite {M : Space} {a b : Nat} {x y : Byte} {s : State} :
    memWrite M b x (memWrite M a y s) = s.setMemory M (exchanged a b x y (s.memory M)) := by
  cases M <;> rfl

/-- What a swap can do: both entries are read and exchanged, and nothing else changes (R12). -/
theorem swap_eq_ok {M : Space} {a b : Byte} {s t : State} :
    swap M a b s = .ok t ↔ ∃ x y, Memory.read a.toNat (s.memory M) = some x ∧
      Memory.read b.toNat (s.memory M) = some y ∧
      t = s.setMemory M (exchanged a.toNat b.toNat x y (s.memory M)) := by
  simp only [swap, bind_eq_ok, memRead_eq_ok, memWrite_memWrite, pure_eq_ok, Except.ok.injEq]
  constructor
  · rintro ⟨x, hx, y, hy, rfl⟩; exact ⟨x, y, hx, hy, rfl⟩
  · rintro ⟨x, y, hx, hy, rfl⟩; exact ⟨x, hx, y, hy, rfl⟩

/-- An exchange, index by index: the second write wins where the two indexes are equal, and then both bytes are. -/
theorem read_exchanged {a b c : Nat} {x y : Byte} {m : Memory} (hx : Memory.read a m = some x)
    (hy : Memory.read b m = some y) :
    Memory.read c (exchanged a b x y m) =
      if c = a then some y else if c = b then some x else Memory.read c m := by
  simp only [exchanged, Memory.read_write]
  by_cases ha : c = a
  · subst ha
    by_cases hb : c = b
    · subst hb; rw [hx] at hy; simp_all
    · simp [hb]
  · by_cases hb : c = b
    · subst hb; simp [ha]
    · simp [ha, hb]

theorem read_exchanged_left {a b : Nat} {x y : Byte} {m : Memory} (hx : Memory.read a m = some x)
    (hy : Memory.read b m = some y) : Memory.read a (exchanged a b x y m) = some y := by
  simp [read_exchanged hx hy]

theorem read_exchanged_right {a b : Nat} {x y : Byte} {m : Memory} :
    Memory.read b (exchanged a b x y m) = some x := by simp [exchanged, Memory.read_write]

theorem wf_exchanged {a b : Nat} {x y : Byte} {m : Memory} (h : Memory.wf m = true) :
    Memory.wf (exchanged a b x y m) = true := Memory.wf_write _ _ (Memory.wf_write _ _ h)

theorem within_exchanged {size a b : Nat} {x y : Byte} {m : Memory} (ha : a < size) (hb : b < size)
    (h : Memory.within size m = true) : Memory.within size (exchanged a b x y m) = true :=
  Memory.within_write _ hb (Memory.within_write _ ha h)

/-! ### Faults, erasure, reset -/

theorem raise_of_clean {c : ECode} {s : State} (h : s.ecode = .none) : raise c s = s.setEcode c := by
  simp [raise, h]

theorem raise_of_faulted {c : ECode} {s : State} (h : s.ecode ≠ .none) : raise c s = s := by
  simp [raise, h]

/-- Everything fault entry can do: it writes ECODE or nothing (R196). -/
theorem raise_frame {c : ECode} {s : State} : raise c s = s.setEcode (raise c s).ecode := by
  unfold raise; split <;> rfl

theorem erase_memory {M : Space} {s : State} : (erase s).memory M = Memory.zeros M.size := by
  cases M <;> rfl

@[simp] theorem emit_out {b : Byte} {s : State} : (emit b s).out = s.out ++ [b] := rfl

@[simp] theorem emit_memory {b : Byte} {s : State} {M : Space} : (emit b s).memory M = s.memory M :=
  State.setOut_memory

end Sys2Proof.Machine
end

