-- ==== Sys2Proof/Laws/Canonical.lean ====
section
/-! SUPPORT. Every operation on the memories keeps their canonical form, and the state after reset has it. -/

namespace Sys2Proof.Safety

open Sys2Proof.Machine

variable {s t : State}

theorem canonical_iff : canonical s = true ↔
    ∀ M : Space, Memory.wf (s.memory M) = true ∧ Memory.within M.size (s.memory M) = true := by
  simp only [canonical, canonicalMemory, Bool.and_eq_true]
  constructor
  · rintro ⟨⟨⟨a, b⟩, c⟩, d⟩ M
    cases M
    · exact a
    · exact b
    · exact c
    · exact d
  · intro h; exact ⟨⟨⟨h .S, h .S2⟩, h .KEY⟩, h .IV⟩

theorem canonical_reset : canonical State.reset = true := by decide

theorem canonical_erase : canonical (erase s) = true := by
  rw [canonical_iff]; intro M; rw [erase_memory]
  exact ⟨Memory.wf_zeros _, Memory.within_zeros _⟩

theorem canonical_applyReset : canonical (applyReset s) = true := canonical_reset

theorem canonical_setMemory {M : Space} {m : Memory} (hs : canonical s = true) (h1 : Memory.wf m = true)
    (h2 : Memory.within M.size m = true) : canonical (s.setMemory M m) = true := by
  rw [canonical_iff] at hs ⊢
  intro N
  by_cases h : N = M
  · subst h; rw [State.setMemory_memory_same]; exact ⟨h1, h2⟩
  · rw [State.setMemory_memory_other h]; exact hs N

theorem canonical_memWrite {M : Space} {a : Nat} {v : Byte} (ha : a < M.size) (hs : canonical s = true) :
    canonical (memWrite M a v s) = true :=
  canonical_setMemory hs (Memory.wf_write _ _ (canonical_iff.1 hs M).1)
    (Memory.within_write _ ha (canonical_iff.1 hs M).2)

theorem canonical_swap {M : Space} {a b : Byte} (ha : a.toNat < M.size) (hb : b.toNat < M.size)
    (hs : canonical s = true) (h : swap M a b s = .ok t) : canonical t = true := by
  obtain ⟨x, y, -, -, rfl⟩ := swap_eq_ok.1 h
  exact canonical_setMemory hs (wf_exchanged (canonical_iff.1 hs M).1)
    (within_exchanged ha hb (canonical_iff.1 hs M).2)

end Sys2Proof.Safety
end

