-- ==== Sys2Proof/Laws/Step.lean ====
section
/-! SUPPORT. Everything each step function can do, once, as an equivalence; and the frame of a step of any variant. -/

namespace Sys2Proof.Machine

variable {s t : State} {k : Byte}

/-- `STEP_RC4()` (R110): `x` is the entry at the new `i`, `y` the entry at the new `j`. -/
theorem stepRc4_eq_ok : stepRc4 s = .ok (k, t) ↔ ∃ x y,
    Memory.read (inc8 s.i).toNat s.S = some x ∧ Memory.read (add8 s.j x).toNat s.S = some y ∧
    t = ((s.setI (inc8 s.i)).setJ (add8 s.j x)).setMemory .S
      (exchanged (inc8 s.i).toNat (add8 s.j x).toNat x y s.S) ∧
    Memory.read (add8 y x).toNat t.S = some k := by
  simp only [stepRc4, bind_eq_ok, memRead_eq_ok, swap_eq_ok, pure_eq_ok, Except.ok.injEq, Prod.mk.injEq,
    State.memory_S, State.setI_S, State.setJ_S, State.setI_i, State.setJ_i, State.setJ_j, State.setI_j]
  constructor
  · rintro ⟨x, hx, u, ⟨x', y, hx', hy, rfl⟩, si, hsi, sj, hsj, k', hk, rfl, rfl⟩
    obtain rfl : x = x' := by simpa [hx] using hx'
    simp only [State.setMemory_i, State.setMemory_j, State.setMemory_S_S, State.setJ_i, State.setI_i,
      State.setJ_j, read_exchanged_left hx hy, read_exchanged_right, Option.some.injEq] at hsi hsj hk
    subst hsi hsj
    exact ⟨x, y, hx, hy, rfl, by simpa using hk⟩
  · rintro ⟨x, y, hx, hy, rfl, hk⟩
    refine ⟨x, hx, _, ⟨x, y, hx, hy, rfl⟩, y, ?_, x, ?_, k, ?_, rfl, rfl⟩
    · simp [read_exchanged_left hx hy]
    · simp [read_exchanged_right]
    · simpa using hk

/-- The FIRST phase of `STEP_RC4A()` (R120). -/
theorem stepRc4aFirst_eq_ok : stepRc4aFirst s = .ok (k, t) ↔ ∃ x y,
    Memory.read (inc8 s.i).toNat s.S = some x ∧ Memory.read (add8 s.j x).toNat s.S = some y ∧
    t = (((s.setPh s.ph.toggle).setI (inc8 s.i)).setJ (add8 s.j x)).setMemory .S
      (exchanged (inc8 s.i).toNat (add8 s.j x).toNat x y s.S) ∧
    Memory.read (add8 y x).toNat s.S2 = some k := by
  simp only [stepRc4aFirst, bind_eq_ok, memRead_eq_ok, swap_eq_ok, pure_eq_ok, Except.ok.injEq, Prod.mk.injEq,
    State.memory_S, State.memory_S2, State.setI_S, State.setJ_S, State.setI_i, State.setJ_i, State.setJ_j, State.setI_j,
    State.setPh_S, State.setPh_i, State.setPh_j]
  constructor
  · rintro ⟨x, hx, u, ⟨x', y, hx', hy, rfl⟩, si, hsi, sj, hsj, k', hk, rfl, rfl⟩
    obtain rfl : x = x' := by simpa [hx] using hx'
    simp only [State.setMemory_i, State.setMemory_j, State.setMemory_S_S, State.setJ_i, State.setI_i,
      State.setJ_j, read_exchanged_left hx hy, read_exchanged_right, Option.some.injEq] at hsi hsj hk
    subst hsi hsj
    exact ⟨x, y, hx, hy, rfl, by simpa using hk⟩
  · rintro ⟨x, y, hx, hy, rfl, hk⟩
    refine ⟨x, hx, _, ⟨x, y, hx, hy, rfl⟩, y, ?_, x, ?_, k, ?_, rfl, rfl⟩
    · simp [read_exchanged_left hx hy]
    · simp [read_exchanged_right]
    · simpa using hk

/-- The SECOND phase of `STEP_RC4A()` (R120). -/
theorem stepRc4aSecond_eq_ok : stepRc4aSecond s = .ok (k, t) ↔ ∃ x y,
    Memory.read s.i.toNat s.S2 = some x ∧ Memory.read (add8 s.j2 x).toNat s.S2 = some y ∧
    t = ((s.setPh s.ph.toggle).setJ2 (add8 s.j2 x)).setMemory .S2
      (exchanged s.i.toNat (add8 s.j2 x).toNat x y s.S2) ∧
    Memory.read (add8 y x).toNat s.S = some k := by
  simp only [stepRc4aSecond, bind_eq_ok, memRead_eq_ok, swap_eq_ok, pure_eq_ok, Except.ok.injEq, Prod.mk.injEq,
    State.memory_S, State.memory_S2, State.setJ2_i, State.setJ2_j2, State.setJ2_S2, State.setPh_S2, State.setPh_i,
    State.setPh_j2]
  constructor
  · rintro ⟨x, hx, u, ⟨x', y, hx', hy, rfl⟩, si, hsi, sj, hsj, k', hk, rfl, rfl⟩
    obtain rfl : x = x' := by simpa [hx] using hx'
    simp only [State.setMemory_i, State.setMemory_j2, State.setMemory_S2_S2, State.setJ2_i, State.setPh_i,
      State.setJ2_j2, read_exchanged_left hx hy, read_exchanged_right, Option.some.injEq] at hsi hsj hk
    subst hsi hsj
    exact ⟨x, y, hx, hy, rfl, by simpa using hk⟩
  · rintro ⟨x, y, hx, hy, rfl, hk⟩
    refine ⟨x, hx, _, ⟨x, y, hx, hy, rfl⟩, y, ?_, x, ?_, k, ?_, rfl, rfl⟩
    · simp [read_exchanged_left hx hy]
    · simp [read_exchanged_right]
    · simpa using hk

/-- `STEP_VMPC()` (R130): `a` is the entry at `i`, `j'` the new `j`, `b` the entry there, `c` the entry at `b`. -/
theorem stepVmpc_eq_ok : stepVmpc s = .ok (k, t) ↔ ∃ a j' b c,
    Memory.read s.i.toNat s.S = some a ∧ Memory.read (add8 s.j a).toNat s.S = some j' ∧
    Memory.read j'.toNat s.S = some b ∧ Memory.read b.toNat s.S = some c ∧
    Memory.read (inc8 c).toNat s.S = some k ∧
    t = ((s.setI (inc8 s.i)).setJ j').setMemory .S (exchanged s.i.toNat j'.toNat a b s.S) := by
  simp only [stepVmpc, bind_eq_ok, memRead_eq_ok, pure_eq_ok, Except.ok.injEq, Prod.mk.injEq,
    State.memory_S, State.setJ_S, State.setJ_j, State.setJ_i]
  constructor
  · rintro ⟨a, ha, j', hj, b, hb, c, hc, k', hk, rfl, rfl⟩
    exact ⟨a, j', b, c, ha, hj, hb, hc, hk, rfl⟩
  · rintro ⟨a, j', b, c, ha, hj, hb, hc, hk, rfl⟩
    exact ⟨a, ha, j', hj, b, hb, c, hc, k, hk, rfl, rfl⟩

/-- `STEP_RC4P()` (R140): `a` is the entry at the new `i`, `b` the entry at the new `j`; all later reads are from the
table after the exchange. -/
theorem stepRc4p_eq_ok : stepRc4p s = .ok (k, t) ↔ ∃ a b sv sw x y z,
    Memory.read (inc8 s.i).toNat s.S = some a ∧ Memory.read (add8 s.j a).toNat s.S = some b ∧
    t = ((s.setI (inc8 s.i)).setJ (add8 s.j a)).setMemory .S
      (exchanged (inc8 s.i).toNat (add8 s.j a).toNat a b s.S) ∧
    Memory.read (mix t.i t.j).toNat t.S = some sv ∧ Memory.read (mix t.j t.i).toNat t.S = some sw ∧
    Memory.read (add8 a b).toNat t.S = some x ∧
    Memory.read (add8 (add8 sv a) sw ^^^ 0xAA).toNat t.S = some y ∧
    Memory.read (add8 t.j b).toNat t.S = some z ∧ k = add8 x y ^^^ z := by
  simp only [stepRc4p, bind_eq_ok, memRead_eq_ok, memWrite_memWrite, pure_eq_ok, Except.ok.injEq, Prod.mk.injEq,
    State.memory_S, State.setI_S, State.setJ_S, State.setI_i, State.setJ_i, State.setJ_j, State.setI_j]
  constructor
  · rintro ⟨a, ha, b, hb, sv, hsv, sj, hsj, sw, hsw, x, hx, y, hy, z, hz, rfl, rfl⟩
    simp only [memWrite, State.memory_S, State.setMemory_i, State.setMemory_j, State.setMemory_S_S, State.setJ_i,
      State.setI_i, State.setJ_j, State.setJ_S, State.setI_S] at hsv hsj hsw hx hy hz
    change Memory.read (add8 s.j a).toNat (exchanged (inc8 s.i).toNat (add8 s.j a).toNat a b s.S) = some sj at hsj
    obtain rfl : sj = a := by simpa [read_exchanged_right] using hsj.symm
    exact ⟨sj, b, sv, sw, x, y, z, ha, hb, rfl, hsv, hsw, hx, hy, hz, rfl⟩
  · rintro ⟨a, b, sv, sw, x, y, z, ha, hb, rfl, hsv, hsw, hx, hy, hz, rfl⟩
    exact ⟨a, ha, b, hb, sv, hsv, a, read_exchanged_right, sw, hsw, x, hx, y, hy, z, hz, rfl, rfl⟩

/-! ### A step of any variant -/

/-- Two entries `a`, `b` of one permutation of `s` are exchanged in `t`, and nothing of the four memories else. -/
def Exchanges (M : Space) (s t : State) : Prop :=
  ∃ (a b x y : Byte), Memory.read a.toNat (s.memory M) = some x ∧ Memory.read b.toNat (s.memory M) = some y ∧
    t.memory M = exchanged a.toNat b.toNat x y (s.memory M) ∧ ∀ N, N ≠ M → t.memory N = s.memory N

/-- The registers a step never writes (R165), as one equation. -/
def CipherFrame (s t : State) : Prop :=
  t = { s with i := t.i, j := t.j, j2 := t.j2, ph := t.ph, S := t.S, S2 := t.S2 }

theorem exchanges_setMemory {M : Space} {a b x y : Byte} {u : State} (hu : ∀ N, u.memory N = s.memory N)
    (hx : Memory.read a.toNat (s.memory M) = some x) (hy : Memory.read b.toNat (s.memory M) = some y) :
    Exchanges M s (u.setMemory M (exchanged a.toNat b.toNat x y (s.memory M))) :=
  ⟨a, b, x, y, hx, hy, State.setMemory_memory_same,
    fun N h => (State.setMemory_memory_other h).trans (hu N)⟩

/-- Everything a step can do (R165): one exchange in `S`, or in `S2` for RC4A in its SECOND phase; only cipher state
changes, and `j2` and `PH` only for RC4A. -/
theorem stepCipher_frame (h : stepCipher s = .ok (k, t)) :
    CipherFrame s t ∧ (s.var ≠ .rc4a → t.j2 = s.j2 ∧ t.ph = s.ph) ∧
      Exchanges (if s.var = .rc4a ∧ s.ph = .second then .S2 else .S) s t := by
  unfold stepCipher at h
  split at h
  case h_1 hv | h_5 hv =>
    obtain ⟨x, y, hx, hy, rfl, -⟩ := stepRc4_eq_ok.1 h
    refine ⟨rfl, fun _ => ⟨rfl, rfl⟩, ?_⟩
    rw [if_neg (by simp [hv])]
    exact exchanges_setMemory (M := .S) (fun N => by simp) hx hy
  case h_2 hv =>
    unfold stepRc4a at h
    split at h
    case h_1 hp =>
      obtain ⟨x, y, hx, hy, rfl, -⟩ := stepRc4aFirst_eq_ok.1 h
      refine ⟨rfl, fun hn => absurd hv hn, ?_⟩
      rw [if_neg (by simp [hp])]
      exact exchanges_setMemory (M := .S) (fun N => by simp) hx hy
    case h_2 hp =>
      obtain ⟨x, y, hx, hy, rfl, -⟩ := stepRc4aSecond_eq_ok.1 h
      refine ⟨rfl, fun hn => absurd hv hn, ?_⟩
      rw [if_pos ⟨hv, hp⟩]
      exact exchanges_setMemory (M := .S2) (fun N => by simp) hx hy
  case h_3 hv =>
    obtain ⟨a, j', b, c, ha, -, hb, -, -, rfl⟩ := stepVmpc_eq_ok.1 h
    refine ⟨rfl, fun _ => ⟨rfl, rfl⟩, ?_⟩
    rw [if_neg (by simp [hv])]
    exact exchanges_setMemory (M := .S) (fun N => by simp) ha hb
  case h_4 hv =>
    obtain ⟨a, b, sv, sw, x, y, z, ha, hb, rfl, -⟩ := stepRc4p_eq_ok.1 h
    refine ⟨rfl, fun _ => ⟨rfl, rfl⟩, ?_⟩
    rw [if_neg (by simp [hv])]
    exact exchanges_setMemory (M := .S) (fun N => by simp) ha hb

end Sys2Proof.Machine
end

