-- ==== Sys2Proof/Laws/Tables.lean ====
section
/-! SUPPORT. What an exchange of two entries keeps: a full table stays full, a permutation stays a permutation. -/

namespace Sys2Proof.Safety

open Sys2Proof.Machine

theorem fullTable_iff {m : Memory} : fullTable m = true ↔ ∀ a : Byte, ∃ v, Memory.read a.toNat m = some v := by
  simp only [fullTable, Config.permutationSize, List.all_eq_true, List.mem_range, Option.isSome_iff_exists]
  constructor
  · intro h a; exact h a.toNat a.isLt
  · intro h a ha; simpa [Nat.mod_eq_of_lt ha] using h (BitVec.ofNat 8 a)

theorem isPermutation_iff {m : Memory} : isPermutation m = true ↔
    fullTable m = true ∧ ∀ a b : Byte, Memory.read a.toNat m = Memory.read b.toNat m → a = b := by
  simp only [isPermutation, Bool.and_eq_true, decide_eq_true_eq, and_congr_right_iff]
  intro _
  show ((List.range 256).map fun a => Memory.read a m).Nodup ↔ _
  constructor
  · intro h a b hab
    exact BitVec.eq_of_toNat_eq
      (List.inj_on_of_nodup_map h (List.mem_range.2 a.isLt) (List.mem_range.2 b.isLt) hab)
  · intro h
    refine List.Nodup.map_on (fun a ha b hb hab => ?_) List.nodup_range
    have ha := List.mem_range.1 ha
    have hb := List.mem_range.1 hb
    have := h (BitVec.ofNat 8 a) (BitVec.ofNat 8 b) (by simpa [Nat.mod_eq_of_lt ha, Nat.mod_eq_of_lt hb] using hab)
    simpa [Nat.mod_eq_of_lt ha, Nat.mod_eq_of_lt hb] using congrArg BitVec.toNat this

theorem fullTable_of_isPermutation {m : Memory} (h : isPermutation m = true) : fullTable m = true :=
  (isPermutation_iff.1 h).1

theorem fullTable_write {m : Memory} {a : Nat} {v : Byte} (h : fullTable m = true) :
    fullTable (Memory.write a v m) = true := by
  rw [fullTable_iff] at h ⊢
  intro c
  by_cases hc : c.toNat = a
  · exact ⟨v, by rw [Memory.read_write, if_pos hc]⟩
  · obtain ⟨w, hw⟩ := h c; exact ⟨w, by rw [Memory.read_write, if_neg hc, hw]⟩

theorem fullTable_exchanged {m : Memory} {a b : Nat} {x y : Byte} (h : fullTable m = true) :
    fullTable (exchanged a b x y m) = true := fullTable_write (fullTable_write h)

/-- The two writes of a step exchange two entries, so the table stays a permutation (R38). -/
theorem isPermutation_exchanged {m : Memory} {a b x y : Byte} (hx : Memory.read a.toNat m = some x)
    (hy : Memory.read b.toNat m = some y) (h : isPermutation m = true) :
    isPermutation (exchanged a.toNat b.toNat x y m) = true := by
  rw [isPermutation_iff] at h ⊢
  refine ⟨fullTable_exchanged h.1, fun c d hcd => ?_⟩
  have key : ∀ e : Byte, Memory.read e.toNat (exchanged a.toNat b.toNat x y m) =
      Memory.read (Equiv.swap a b e).toNat m := by
    intro e
    rw [read_exchanged hx hy]
    simp only [Equiv.swap_apply_def, ← BitVec.toNat_inj]
    split
    · rw [hy]
    · split
      · rw [hx]
      · rfl
  rw [key, key] at hcd
  exact (Equiv.swap a b).injective (h.2 _ _ hcd)

end Sys2Proof.Safety
end

