-- ==== Sys2Proof/Laws/Run.lean ====
section
/-! SUPPORT. A step succeeds on a usable instance; a step depends on cipher state alone; and the counted loops as a plain
iteration of steps. -/

namespace Sys2Proof.Machine

open Sys2Proof.Safety

variable {s t u : State} {k : Byte}

theorem usable_iff : usable s = true ↔
    s.keyed = true ∧ fullTable s.S = true ∧ (s.var = .rc4a → fullTable s.S2 = true) := by
  simp only [usable, Bool.and_eq_true, Bool.or_eq_true, decide_eq_true_eq, and_assoc]
  by_cases h : s.var = .rc4a <;> simp [h]

/-- On a usable instance a step returns a byte and leaves a usable instance (R165: a step always returns exactly one byte
and always terminates). -/
theorem stepCipher_usable (h : usable s = true) : ∃ k t, stepCipher s = .ok (k, t) ∧ usable t = true := by
  obtain ⟨hk, hS, hS2⟩ := usable_iff.1 h
  have keep : ∀ {k t}, stepCipher s = .ok (k, t) → usable t = true := by
    intro k t ht
    obtain ⟨hf, -, a, b, x, y, hx, hy, hm, ho⟩ := stepCipher_frame ht
    rw [CipherFrame] at hf
    rw [usable_iff]
    refine ⟨by rw [hf]; exact hk, ?_, fun hv => ?_⟩
    · by_cases hc : s.var = .rc4a ∧ s.ph = .second
      · rw [if_pos hc] at ho
        have := ho .S (by simp); simp only [State.memory_S] at this; rw [this]; exact hS
      · rw [if_neg hc] at hm
        simp only [State.memory_S] at hm; rw [hm]; exact fullTable_exchanged hS
    · have hv' : s.var = .rc4a := by rw [hf] at hv; exact hv
      by_cases hc : s.var = .rc4a ∧ s.ph = .second
      · rw [if_pos hc] at hm
        simp only [State.memory_S2] at hm; rw [hm]; exact fullTable_exchanged (hS2 hv')
      · rw [if_neg hc] at ho
        have := ho .S2 (by simp); simp only [State.memory_S2] at this; rw [this]; exact hS2 hv'
  suffices ∃ k t, stepCipher s = .ok (k, t) by
    obtain ⟨k, t, ht⟩ := this; exact ⟨k, t, ht, keep ht⟩
  have rd := fullTable_iff.1 hS
  have base : ∃ k t, stepRc4 s = .ok (k, t) := by
    obtain ⟨x, hx⟩ := rd (inc8 s.i)
    obtain ⟨y, hy⟩ := rd (add8 s.j x)
    obtain ⟨k, hk⟩ := fullTable_iff.1 (fullTable_exchanged (a := (inc8 s.i).toNat) (b := (add8 s.j x).toNat)
      (x := x) (y := y) hS) (add8 y x)
    exact ⟨k, _, stepRc4_eq_ok.2 ⟨x, y, hx, hy, rfl, by simpa using hk⟩⟩
  unfold stepCipher
  split
  case h_1 | h_5 => exact base
  case h_2 hv =>
    have rd2 := fullTable_iff.1 (hS2 hv)
    unfold stepRc4a
    split
    · obtain ⟨x, hx⟩ := rd (inc8 s.i)
      obtain ⟨y, hy⟩ := rd (add8 s.j x)
      obtain ⟨k, hk⟩ := rd2 (add8 y x)
      exact ⟨k, _, stepRc4aFirst_eq_ok.2 ⟨x, y, hx, hy, rfl, hk⟩⟩
    · obtain ⟨x, hx⟩ := rd2 s.i
      obtain ⟨y, hy⟩ := rd2 (add8 s.j2 x)
      obtain ⟨k, hk⟩ := rd (add8 y x)
      exact ⟨k, _, stepRc4aSecond_eq_ok.2 ⟨x, y, hx, hy, rfl, hk⟩⟩
  case h_3 =>
    obtain ⟨a, ha⟩ := rd s.i
    obtain ⟨j', hj⟩ := rd (add8 s.j a)
    obtain ⟨b, hb⟩ := rd j'
    obtain ⟨c, hc⟩ := rd b
    obtain ⟨k, hk⟩ := rd (inc8 c)
    exact ⟨k, _, stepVmpc_eq_ok.2 ⟨a, j', b, c, ha, hj, hb, hc, hk, rfl⟩⟩
  case h_4 =>
    obtain ⟨a, ha⟩ := rd (inc8 s.i)
    obtain ⟨b, hb⟩ := rd (add8 s.j a)
    have rd' := fullTable_iff.1 (fullTable_exchanged (a := (inc8 s.i).toNat) (b := (add8 s.j a).toNat)
      (x := a) (y := b) hS)
    obtain ⟨sv, hsv⟩ := rd' (mix (inc8 s.i) (add8 s.j a))
    obtain ⟨sw, hsw⟩ := rd' (mix (add8 s.j a) (inc8 s.i))
    obtain ⟨x, hx⟩ := rd' (add8 a b)
    obtain ⟨y, hy⟩ := rd' (add8 (add8 sv a) sw ^^^ 0xAA)
    obtain ⟨z, hz⟩ := rd' (add8 (add8 s.j a) b)
    exact ⟨_, _, stepRc4p_eq_ok.2 ⟨a, b, sv, sw, x, y, z, ha, hb, rfl, by simpa using hsv, by simpa using hsw,
      by simpa using hx, by simpa using hy, by simpa using hz, rfl⟩⟩

/-- The state `u` with the cipher state (and variant) of `s`. -/
def carry (u s : State) : State :=
  { u with i := s.i, j := s.j, j2 := s.j2, ph := s.ph, var := s.var, S := s.S, S2 := s.S2 }

/-- A step reads and writes cipher state alone (R165), so it runs alike whatever the rest of the state is. -/
theorem stepCipher_carry (u : State) (h : stepCipher s = .ok (k, t)) :
    stepCipher (carry u s) = .ok (k, carry u t) := by
  unfold stepCipher at h ⊢
  have base : stepRc4 s = .ok (k, t) → stepRc4 (carry u s) = .ok (k, carry u t) := by
    intro h
    obtain ⟨x, y, hx, hy, rfl, hk⟩ := stepRc4_eq_ok.1 h
    exact stepRc4_eq_ok.2 ⟨x, y, hx, hy, rfl, hk⟩
  show (match s.var with
    | .rc4 => stepRc4 (carry u s)
    | .rc4a => stepRc4a (carry u s)
    | .vmpc => stepVmpc (carry u s)
    | .rc4p => stepRc4p (carry u s)
    | .rc4drop => stepRc4 (carry u s)) = _
  cases hv : s.var <;> rw [hv] at h <;> simp only at h ⊢
  case rc4 | rc4drop => exact base h
  case rc4a =>
    unfold stepRc4a at h ⊢
    show (match s.ph with
      | .first => stepRc4aFirst (carry u s)
      | .second => stepRc4aSecond (carry u s)) = _
    cases hp : s.ph <;> rw [hp] at h <;> simp only at h ⊢
    · obtain ⟨x, y, hx, hy, rfl, hk⟩ := stepRc4aFirst_eq_ok.1 h
      exact stepRc4aFirst_eq_ok.2 ⟨x, y, hx, hy, rfl, hk⟩
    · obtain ⟨x, y, hx, hy, rfl, hk⟩ := stepRc4aSecond_eq_ok.1 h
      exact stepRc4aSecond_eq_ok.2 ⟨x, y, hx, hy, rfl, hk⟩
  case vmpc =>
    obtain ⟨a, j', b, c, ha, hj, hb, hc, hk, rfl⟩ := stepVmpc_eq_ok.1 h
    exact stepVmpc_eq_ok.2 ⟨a, j', b, c, ha, hj, hb, hc, hk, rfl⟩
  case rc4p =>
    obtain ⟨a, b, sv, sw, x, y, z, ha, hb, rfl, hsv, hsw, hx, hy, hz, rfl⟩ := stepRc4p_eq_ok.1 h
    exact stepRc4p_eq_ok.2 ⟨a, b, sv, sw, x, y, z, ha, hb, rfl, hsv, hsw, hx, hy, hz, rfl⟩

/-! ### The counted loops -/

/-- `n` steps, the bytes they return, and the state they leave. -/
def steps : Nat → State → Except Fault (List Byte × State)
  | 0, s => .ok ([], s)
  | n + 1, s => do
    let r ← stepCipher s
    let q ← steps n r.2
    return (r.1 :: q.1, q.2)

theorem steps_succ_eq_ok {n : Nat} {bs : List Byte} : steps (n + 1) s = .ok (bs, t) ↔
    ∃ k u cs, stepCipher s = .ok (k, u) ∧ steps n u = .ok (cs, t) ∧ bs = k :: cs := by
  simp only [steps, bind_eq_ok, pure_eq_ok, Except.ok.injEq, Prod.mk.injEq, Prod.exists]
  constructor
  · rintro ⟨k, u, h1, cs, t', h2, rfl, rfl⟩; exact ⟨k, u, cs, h1, h2, rfl⟩
  · rintro ⟨k, u, cs, h1, h2, rfl⟩; exact ⟨k, u, h1, cs, t, h2, rfl, rfl⟩

theorem steps_length {n : Nat} {bs : List Byte} (h : steps n s = .ok (bs, t)) : bs.length = n := by
  induction n generalizing s bs with
  | zero => simp only [steps, Except.ok.injEq, Prod.mk.injEq] at h; simp [← h.1]
  | succ n ih =>
    obtain ⟨k, u, cs, -, h2, rfl⟩ := steps_succ_eq_ok.1 h
    simp [ih h2]

/-- Steps compose (R157). -/
theorem steps_add {n m : Nat} {bs cs : List Byte} (h1 : steps n s = .ok (bs, t)) (h2 : steps m t = .ok (cs, u)) :
    steps (n + m) s = .ok (bs ++ cs, u) := by
  induction n generalizing s bs with
  | zero =>
    simp only [steps, Except.ok.injEq, Prod.mk.injEq] at h1
    obtain ⟨rfl, rfl⟩ := h1; simpa using h2
  | succ n ih =>
    obtain ⟨k, v, ds, hv, h3, rfl⟩ := steps_succ_eq_ok.1 h1
    rw [Nat.succ_add]
    exact steps_succ_eq_ok.2 ⟨k, v, ds ++ cs, hv, ih h3, rfl⟩

theorem steps_usable (n : Nat) (h : usable s = true) : ∃ bs t, steps n s = .ok (bs, t) ∧ usable t = true := by
  induction n generalizing s with
  | zero => exact ⟨[], s, rfl, h⟩
  | succ n ih =>
    obtain ⟨k, u, hu, hus⟩ := stepCipher_usable h
    obtain ⟨cs, t, ht, hts⟩ := ih hus
    exact ⟨k :: cs, t, steps_succ_eq_ok.2 ⟨k, u, cs, hu, ht, rfl⟩, hts⟩

theorem steps_carry {n : Nat} {bs : List Byte} (u : State) (h : steps n s = .ok (bs, t)) :
    steps n (carry u s) = .ok (bs, carry u t) := by
  induction n generalizing s bs with
  | zero =>
    simp only [steps, Except.ok.injEq, Prod.mk.injEq] at h ⊢
    obtain ⟨rfl, rfl⟩ := h; exact ⟨rfl, rfl⟩
  | succ n ih =>
    obtain ⟨k, v, cs, hv, h2, rfl⟩ := steps_succ_eq_ok.1 h
    exact steps_succ_eq_ok.2 ⟨k, carry u v, cs, stepCipher_carry u hv, ih h2, rfl⟩

/-- A property every step keeps holds after any number of them. -/
theorem steps_keep {P : State → Prop} (hP : ∀ {s k t}, stepCipher s = .ok (k, t) → P s → P t) {n : Nat}
    {bs : List Byte} (h : steps n s = .ok (bs, t)) (hs : P s) : P t := by
  induction n generalizing s bs with
  | zero =>
    simp only [steps, Except.ok.injEq, Prod.mk.injEq] at h
    obtain ⟨-, rfl⟩ := h; exact hs
  | succ n ih =>
    obtain ⟨k, v, cs, hv, h2, rfl⟩ := steps_succ_eq_ok.1 h
    exact ih h2 (hP hv hs)

theorem carry_frame (h : CipherFrame s t) : carry s t = t := by
  rw [CipherFrame] at h; rw [h]; rfl

theorem steps_frame {n : Nat} {bs : List Byte} (h : steps n s = .ok (bs, t)) : carry s t = t :=
  steps_keep (P := fun v => carry s v = v)
    (fun hk hs => by
      have := carry_frame (stepCipher_frame hk).1
      rw [← this, ← hs]; rfl) h rfl

theorem steps_setCnt {n : Nat} {bs : List Byte} (c : Count) (h : steps n s = .ok (bs, t)) :
    steps n (s.setCnt c) = .ok (bs, t.setCnt c) := by
  have h1 : steps n (s.setCnt c) = .ok (bs, carry (s.setCnt c) t) := steps_carry (s.setCnt c) h
  rw [h1, ← steps_frame h]; rfl

theorem steps_setOut {n : Nat} {bs : List Byte} (o : List Byte) (h : steps n s = .ok (bs, t)) :
    steps n (s.setOut o) = .ok (bs, t.setOut o) := by
  have h1 : steps n (s.setOut o) = .ok (bs, carry (s.setOut o) t) := steps_carry (s.setOut o) h
  rw [h1, ← steps_frame h]; rfl

theorem stepCipher_cnt (h : stepCipher s = .ok (k, t)) : t.cnt = s.cnt := by
  have := (stepCipher_frame h).1; rw [CipherFrame] at this; rw [this]

theorem stepCipher_out (h : stepCipher s = .ok (k, t)) : t.out = s.out := by
  have := (stepCipher_frame h).1; rw [CipherFrame] at this; rw [this]

/-! ### What steps leave -/

theorem steps_out {n : Nat} {bs : List Byte} (h : steps n s = .ok (bs, t)) : t.out = s.out := by
  rw [← steps_frame h]; rfl

theorem steps_cnt {n : Nat} {bs : List Byte} (h : steps n s = .ok (bs, t)) : t.cnt = s.cnt := by
  rw [← steps_frame h]; rfl

theorem steps_keyed {n : Nat} {bs : List Byte} (h : steps n s = .ok (bs, t)) : t.keyed = s.keyed := by
  rw [← steps_frame h]; rfl

theorem steps_var {n : Nat} {bs : List Byte} (h : steps n s = .ok (bs, t)) : t.var = s.var := by
  refine (steps_keep (P := fun v => v.var = s.var) (fun hk hs => ?_) h rfl :)
  rw [(stepCipher_frame hk).1]; exact hs

/-- Only RC4A steps write `j2`, `PH` and `S2` (R23, R24, R34). -/
theorem steps_notRc4a {n : Nat} {bs : List Byte} (hv : s.var ≠ .rc4a) (h : steps n s = .ok (bs, t)) :
    t.j2 = s.j2 ∧ t.ph = s.ph ∧ t.S2 = s.S2 := by
  suffices t.var = s.var ∧ t.j2 = s.j2 ∧ t.ph = s.ph ∧ t.S2 = s.S2 from this.2
  refine (steps_keep (P := fun v => v.var = s.var ∧ v.j2 = s.j2 ∧ v.ph = s.ph ∧ v.S2 = s.S2) ?_ h
    ⟨rfl, rfl, rfl, rfl⟩ :)
  intro a k b hk ⟨e1, e2, e3, e4⟩
  obtain ⟨f1, f2, x, y, p, q, -, -, -, f3⟩ := stepCipher_frame hk
  have hav : a.var ≠ .rc4a := by rw [e1]; exact hv
  rw [if_neg fun hh => hav hh.1] at f3
  refine ⟨?_, (f2 hav).1.trans e2, (f2 hav).2.trans e3, (f3 .S2 (by simp)).trans e4⟩
  rw [f1]; exact e1

/-- A property of a table that survives the exchange of two of its entries survives every step (R33, R34). -/
theorem steps_table {P : Memory → Prop}
    (hP : ∀ {m : Memory} {a b x y : Byte}, Memory.read a.toNat m = some x → Memory.read b.toNat m = some y → P m →
      P (exchanged a.toNat b.toNat x y m))
    {n : Nat} {bs : List Byte} (h : steps n s = .ok (bs, t)) : (P s.S → P t.S) ∧ (P s.S2 → P t.S2) := by
  constructor
  · refine (steps_keep (P := fun v => P v.S) (fun {a k b} hk hp => ?_) h :)
    obtain ⟨-, -, x, y, p, q, hx, hy, hm, ho⟩ := stepCipher_frame hk
    by_cases hc : a.var = .rc4a ∧ a.ph = .second
    · rw [if_pos hc] at ho
      have := ho .S (by simp); simp only [State.memory_S] at this; rw [this]; exact hp
    · rw [if_neg hc] at hx hy hm
      simp only [State.memory_S] at hx hy hm; rw [hm]; exact hP hx hy hp
  · refine (steps_keep (P := fun v => P v.S2) (fun {a k b} hk hp => ?_) h :)
    obtain ⟨-, -, x, y, p, q, hx, hy, hm, ho⟩ := stepCipher_frame hk
    by_cases hc : a.var = .rc4a ∧ a.ph = .second
    · rw [if_pos hc] at hx hy hm
      simp only [State.memory_S2] at hx hy hm; rw [hm]; exact hP hx hy hp
    · rw [if_neg hc] at ho
      have := ho .S2 (by simp); simp only [State.memory_S2] at this; rw [this]; exact hp

/-- Every step keeps a permutation (R38). -/
theorem steps_isPermutation {n : Nat} {bs : List Byte} (h : steps n s = .ok (bs, t)) :
    (isPermutation s.S = true → isPermutation t.S = true) ∧
      (isPermutation s.S2 = true → isPermutation t.S2 = true) :=
  steps_table (P := fun m => isPermutation m = true) isPermutation_exchanged h

/-- Every step keeps a table whose every entry is written. -/
theorem steps_fullTable {n : Nat} {bs : List Byte} (h : steps n s = .ok (bs, t)) :
    (fullTable s.S = true → fullTable t.S = true) ∧ (fullTable s.S2 = true → fullTable t.S2 = true) :=
  steps_table (P := fun m => fullTable m = true) (fun _ _ h => fullTable_exchanged h) h

/-- Every step keeps the canonical form of the memories. -/
theorem steps_canonical {n : Nat} {bs : List Byte} (h : steps n s = .ok (bs, t)) (hs : canonical s = true) :
    canonical t = true := by
  refine (steps_keep (P := fun v => canonical v = true) (fun {a k b} hk hp => ?_) h hs :)
  obtain ⟨-, -, x, y, p, q, hx, hy, hm, ho⟩ := stepCipher_frame hk
  simp only [canonical, canonicalMemory, Bool.and_eq_true] at hp ⊢
  obtain ⟨⟨⟨⟨a1, a2⟩, b1, b2⟩, c1⟩, d1⟩ := hp
  by_cases hc : a.var = .rc4a ∧ a.ph = .second
  · rw [if_pos hc] at hm ho
    rw [ho .S (by simp), ho .KEY (by simp), ho .IV (by simp), hm]
    exact ⟨⟨⟨⟨a1, a2⟩, wf_exchanged b1, within_exchanged x.isLt y.isLt b2⟩, c1⟩, d1⟩
  · rw [if_neg hc] at hm ho
    rw [ho .S2 (by simp), ho .KEY (by simp), ho .IV (by simp), hm]
    exact ⟨⟨⟨⟨wf_exchanged a1, within_exchanged x.isLt y.isLt a2⟩, b1, b2⟩, c1⟩, d1⟩

/-- A number of steps splits. -/
theorem steps_split {n m : Nat} {ds : List Byte} (h : steps (n + m) s = .ok (ds, u)) :
    ∃ bs t cs, steps n s = .ok (bs, t) ∧ steps m t = .ok (cs, u) ∧ ds = bs ++ cs := by
  induction n generalizing s ds with
  | zero => rw [Nat.zero_add] at h; exact ⟨[], s, ds, rfl, h, rfl⟩
  | succ n ih =>
    rw [Nat.succ_add] at h
    obtain ⟨k, v, cs, h1, h2, rfl⟩ := steps_succ_eq_ok.1 h
    obtain ⟨bs, t, es, h3, h4, rfl⟩ := ih h2
    exact ⟨k :: bs, t, es, steps_succ_eq_ok.2 ⟨k, v, bs, h1, h3, rfl⟩, h4, rfl⟩

theorem sub_one_sub (c : Count) (n : Nat) : c - 1 - BitVec.ofNat 24 n = c - BitVec.ofNat 24 (n + 1) := by
  have h : BitVec.ofNat 24 (n + 1) = BitVec.ofNat 24 n + 1 := BitVec.ofNat_add ..
  rw [h]; abel

/-- The loop of a skip or a DROP is `n` steps whose bytes are dropped, CNT run down by `n` (R156). -/
theorem discardLoop_eq_ok {n : Nat} : discardLoop n s = .ok t ↔
    ∃ bs u, steps n s = .ok (bs, u) ∧ t = u.setCnt (s.cnt - BitVec.ofNat 24 n) := by
  induction n generalizing s with
  | zero =>
    simp only [discardLoop, steps, Except.ok.injEq, Prod.mk.injEq]
    constructor
    · rintro rfl; exact ⟨[], s, ⟨rfl, rfl⟩, by simp⟩
    · rintro ⟨bs, u, ⟨-, rfl⟩, rfl⟩; simp
  | succ n ih =>
    simp only [discardLoop, bind_eq_ok, ih, Prod.exists]
    constructor
    · rintro ⟨k, v, hv, bs, u, hu, rfl⟩
      have h2 := steps_setCnt v.cnt hu
      simp only [State.setCnt_setCnt, State.setCnt_self] at h2
      refine ⟨k :: bs, _, steps_succ_eq_ok.2 ⟨k, v, bs, hv, h2, rfl⟩, ?_⟩
      simp only [State.setCnt_setCnt, State.setCnt_cnt, stepCipher_cnt hv, sub_one_sub]
    · rintro ⟨bs, u, hs, rfl⟩
      obtain ⟨k, v, cs, hv, h2, rfl⟩ := steps_succ_eq_ok.1 hs
      refine ⟨k, v, hv, cs, _, steps_setCnt (v.cnt - 1) h2, ?_⟩
      simp only [State.setCnt_setCnt, State.setCnt_cnt, stepCipher_cnt hv, sub_one_sub]

/-- The loop of GENN is `n` steps whose bytes are appended to OUT, CNT run down by `n` (R156, R167). -/
theorem emitLoop_eq_ok {n : Nat} : emitLoop n s = .ok t ↔
    ∃ bs u, steps n s = .ok (bs, u) ∧ t = (u.setCnt (s.cnt - BitVec.ofNat 24 n)).setOut (s.out ++ bs) := by
  induction n generalizing s with
  | zero =>
    simp only [emitLoop, steps, Except.ok.injEq, Prod.mk.injEq]
    constructor
    · rintro rfl; exact ⟨[], s, ⟨rfl, rfl⟩, by simp⟩
    · rintro ⟨bs, u, ⟨rfl, rfl⟩, rfl⟩; simp
  | succ n ih =>
    simp only [emitLoop, bind_eq_ok, ih, Prod.exists]
    constructor
    · rintro ⟨k, v, hv, bs, u, hu, rfl⟩
      have h2 := steps_setOut v.out (steps_setCnt v.cnt hu)
      have e : ((((emit k v).setCnt ((emit k v).cnt - 1)).setCnt v.cnt).setOut v.out) = v := rfl
      rw [e] at h2
      refine ⟨k :: bs, _, steps_succ_eq_ok.2 ⟨k, v, bs, hv, h2, rfl⟩, ?_⟩
      simp only [emit, State.setCnt_cnt, State.setOut_cnt, State.setCnt_out, State.setOut_out, stepCipher_cnt hv,
        stepCipher_out hv, sub_one_sub, List.append_assoc, List.singleton_append]
      rfl
    · rintro ⟨bs, u, hs, rfl⟩
      obtain ⟨k, v, cs, hv, h2, rfl⟩ := steps_succ_eq_ok.1 hs
      refine ⟨k, v, hv, cs, _, steps_setCnt _ (steps_setOut _ h2), ?_⟩
      simp only [emit, State.setCnt_cnt, State.setOut_cnt, State.setCnt_out, State.setOut_out, stepCipher_cnt hv,
        stepCipher_out hv, sub_one_sub, List.append_assoc, List.singleton_append]
      rfl

/-- `n` discarded steps (R103, R151): CNT ends at 0. -/
theorem discardSteps_eq_ok {n : Count} : discardSteps n s = .ok t ↔
    ∃ bs u, steps n.toNat s = .ok (bs, u) ∧ t = u.setCnt 0 := by
  simp only [discardSteps, discardLoop_eq_ok, State.setCnt_cnt, BitVec.ofNat_toNat, BitVec.setWidth_eq, BitVec.sub_self]
  constructor
  · rintro ⟨bs, u, hs, rfl⟩
    have := steps_setCnt s.cnt hs
    simp only [State.setCnt_setCnt, State.setCnt_self] at this
    exact ⟨bs, _, this, by simp⟩
  · rintro ⟨bs, u, hs, rfl⟩
    exact ⟨bs, _, steps_setCnt n hs, by simp⟩

/-- `n` emitted steps (R167): CNT ends at 0 and OUT has grown by the bytes. -/
theorem emitSteps_eq_ok {n : Count} : emitSteps n s = .ok t ↔
    ∃ bs u, steps n.toNat s = .ok (bs, u) ∧ t = (u.setCnt 0).setOut (s.out ++ bs) := by
  simp only [emitSteps, emitLoop_eq_ok, State.setCnt_cnt, State.setCnt_out, BitVec.ofNat_toNat, BitVec.setWidth_eq,
    BitVec.sub_self]
  constructor
  · rintro ⟨bs, u, hs, rfl⟩
    have := steps_setCnt s.cnt hs
    simp only [State.setCnt_setCnt, State.setCnt_self] at this
    exact ⟨bs, _, this, by simp⟩
  · rintro ⟨bs, u, hs, rfl⟩
    exact ⟨bs, _, steps_setCnt n hs, by simp⟩

end Sys2Proof.Machine
end

