-- ==== Sys2Proof/Laws/Cipher.lean ====
section
/-! SUPPORT. Two blocks in the same cipher state step alike, whatever else they hold. -/

namespace Sys2Proof.Machine

open Sys2Proof.Safety

variable {s s' t : State}

theorem sameCipher_refl : sameCipher s s := ⟨rfl, rfl, rfl, rfl, rfl, fun _ => ⟨rfl, rfl, rfl⟩⟩

/-- For RC4A the two states differ in what a step carries along only. -/
theorem sameCipher_rc4a (hv : s.var = .rc4a) (h : sameCipher s s') : carry s' s = s' := by
  obtain ⟨e1, -, e3, e4, e5, e6⟩ := h
  obtain ⟨e7, e8, e9⟩ := e6 hv
  rw [carry, ← e1, ← e3, ← e4, ← e5, ← e7, ← e8, ← e9]

/-- A step returns the same byte on both blocks and leaves them in the same cipher state (R165). -/
theorem stepCipher_same {k : Byte} (hs : sameCipher s s') (h : stepCipher s = .ok (k, t)) :
    ∃ t', stepCipher s' = .ok (k, t') ∧ sameCipher t t' := by
  by_cases hv : s.var = .rc4a
  · refine ⟨carry s' t, ?_, ?_⟩
    · rw [← sameCipher_rc4a hv hs]; exact stepCipher_carry s' h
    · have hf := (stepCipher_frame h).1
      have e : t.keyed = s.keyed := by rw [CipherFrame] at hf; rw [hf]
      exact ⟨rfl, hs.2.1.trans e.symm, rfl, rfl, rfl, fun _ => ⟨rfl, rfl, rfl⟩⟩
  obtain ⟨e1, e2, e3, e4, e5, -⟩ := hs
  have base : s.var ≠ .rc4a → stepRc4 s = .ok (k, t) → ∃ t', stepRc4 s' = .ok (k, t') ∧ sameCipher t t' := by
    intro hn h
    obtain ⟨x, y, hx, hy, rfl, hk⟩ := stepRc4_eq_ok.1 h
    refine ⟨_, stepRc4_eq_ok.2 ⟨x, y, by rw [e3, e5]; exact hx, by rw [e4, e5]; exact hy, rfl, ?_⟩, ?_⟩
    · rw [e3, e4, e5]; exact hk
    · rw [e3, e4, e5]; exact ⟨e1, e2, rfl, rfl, rfl, fun hh => absurd hh hn⟩
  unfold stepCipher at h ⊢
  rw [e1]
  cases hw : s.var <;> rw [hw] at h <;> simp only at h ⊢
  case rc4 | rc4drop => exact base hv h
  case rc4a => exact absurd hw hv
  case vmpc =>
    obtain ⟨a, j', b, c, ha, hj, hb, hc, hk, rfl⟩ := stepVmpc_eq_ok.1 h
    refine ⟨_, stepVmpc_eq_ok.2 ⟨a, j', b, c, by rw [e3, e5]; exact ha, by rw [e4, e5]; exact hj,
      by rw [e5]; exact hb, by rw [e5]; exact hc, by rw [e5]; exact hk, rfl⟩, ?_⟩
    rw [e3, e5]; exact ⟨e1, e2, rfl, rfl, rfl, fun hh => absurd hh hv⟩
  case rc4p =>
    obtain ⟨a, b, sv, sw, x, y, z, ha, hb, rfl, h1, h2, h3, h4, h5, hk⟩ := stepRc4p_eq_ok.1 h
    refine ⟨_, stepRc4p_eq_ok.2 ⟨a, b, sv, sw, x, y, z, by rw [e3, e5]; exact ha, by rw [e4, e5]; exact hb, rfl,
      ?_, ?_, ?_, ?_, ?_, hk⟩, ?_⟩
    · rw [e3, e4, e5]; exact h1
    · rw [e3, e4, e5]; exact h2
    · rw [e3, e4, e5]; exact h3
    · rw [e3, e4, e5]; exact h4
    · rw [e3, e4, e5]; exact h5
    · rw [e3, e4, e5]; exact ⟨e1, e2, rfl, rfl, rfl, fun hh => absurd hh hv⟩

/-- The same for any number of steps. -/
theorem steps_same {n : Nat} {bs : List Byte} (hs : sameCipher s s') (h : steps n s = .ok (bs, t)) :
    ∃ t', steps n s' = .ok (bs, t') ∧ sameCipher t t' := by
  induction n generalizing s s' bs with
  | zero =>
    simp only [steps, Except.ok.injEq, Prod.mk.injEq] at h ⊢
    obtain ⟨rfl, rfl⟩ := h
    exact ⟨s', ⟨rfl, rfl⟩, hs⟩
  | succ n ih =>
    obtain ⟨k, u, cs, h1, h2, rfl⟩ := steps_succ_eq_ok.1 h
    obtain ⟨u', h1', hu⟩ := stepCipher_same hs h1
    obtain ⟨t', h2', ht⟩ := ih hu h2
    exact ⟨t', steps_succ_eq_ok.2 ⟨k, u', cs, h1', h2', rfl⟩, ht⟩

end Sys2Proof.Machine
end

