-- ==== Sys2Proof/Laws/Core.lean ====
section
/-! SUPPORT. Runs of a machine behind the host's interface, one step at a time. -/

namespace Sys2Proof.Laws

/-- A run whose first step answers a next state goes on from that state. -/
theorem run_step {M : Host.Core} {n : Nat} {s t : M.State} (h : M.step s = .next t) :
    Host.Core.run M (n + 1) s = Host.Core.run M n t := by
  simp only [Host.Core.run, h]

/-- The same for the block. -/
theorem core_run_step {n : Nat} {s t : Sys2Proof.Machine.State} (h : Sys2Proof.Machine.step s = .next t) :
    Host.Core.run Sys2Proof.core (n + 1) s = Host.Core.run Sys2Proof.core n t :=
  run_step (M := Sys2Proof.core) h

end Sys2Proof.Laws
end

