-- ==== Sys2Proof/Laws/Encoding.lean ====
section
/-! SUPPORT. The fields of the words the encoder builds, and what it means for a word to have given fields. -/

namespace Sys2Proof.Laws

open Sys2Proof

theorem wordC_toNat (op : Byte) (c : Count) : (wordC op c).toNat = op.toNat * 2 ^ 24 + c.toNat := by
  have h : (op ++ c).toNat = op.toNat <<< 24 ||| c.toNat := BitVec.toNat_append ..
  rw [← Nat.shiftLeft_add_eq_or_of_lt c.isLt, Nat.shiftLeft_eq] at h
  exact h

theorem wordN_toNat (op : Byte) : (wordN op).toNat = op.toNat * 2 ^ 24 :=
  (wordC_toNat op 0).trans (Nat.add_zero _)

theorem wordB_toNat (op b : Byte) : (wordB op b).toNat = op.toNat * 2 ^ 24 + b.toNat := by
  have h1 : (op ++ (0 : BitVec 16)).toNat = op.toNat <<< 16 ||| (0 : BitVec 16).toNat := BitVec.toNat_append ..
  have h : (op ++ (0 : BitVec 16) ++ b).toNat = (op ++ (0 : BitVec 16)).toNat <<< 8 ||| b.toNat :=
    BitVec.toNat_append ..
  rw [← Nat.shiftLeft_add_eq_or_of_lt b.isLt, Nat.shiftLeft_eq, h1] at h
  have h2 : (op.toNat <<< 16 ||| (0 : BitVec 16).toNat) = op.toNat * 2 ^ 16 := by simp [Nat.shiftLeft_eq]
  rw [h2] at h
  have e : (wordB op b).toNat = (op ++ (0 : BitVec 16) ++ b).toNat := rfl
  rw [e, h]; omega

theorem opField_toNat (cw : Word) : (opField cw).toNat = cw.toNat / 2 ^ 24 := by
  have := cw.isLt
  simp only [opField, BitVec.extractLsb'_toNat, Nat.shiftRight_eq_div_pow]; omega

theorem lowField_toNat (cw : Word) : (lowField cw).toNat = cw.toNat % 2 ^ 24 := by
  simp [lowField, BitVec.extractLsb'_toNat]

theorem middleField_toNat (cw : Word) : (middleField cw).toNat = cw.toNat / 2 ^ 8 % 2 ^ 16 := by
  simp [middleField, BitVec.extractLsb'_toNat, Nat.shiftRight_eq_div_pow]

theorem byteField_toNat (cw : Word) : (byteField cw).toNat = cw.toNat % 2 ^ 8 := by
  simp [byteField, BitVec.extractLsb'_toNat]

theorem fields_wordN (op : Byte) : opField (wordN op) = op ∧ lowField (wordN op) = 0 := by
  constructor <;> apply BitVec.eq_of_toNat_eq
  · rw [opField_toNat, wordN_toNat]; omega
  · rw [lowField_toNat, wordN_toNat]; simp

theorem fields_wordC (op : Byte) (c : Count) : opField (wordC op c) = op ∧ lowField (wordC op c) = c := by
  have := c.isLt
  constructor <;> apply BitVec.eq_of_toNat_eq
  · rw [opField_toNat, wordC_toNat]; omega
  · rw [lowField_toNat, wordC_toNat]; omega

theorem fields_wordB (op b : Byte) :
    opField (wordB op b) = op ∧ middleField (wordB op b) = 0 ∧ byteField (wordB op b) = b := by
  have := b.isLt
  refine ⟨?_, ?_, ?_⟩ <;> apply BitVec.eq_of_toNat_eq
  · rw [opField_toNat, wordB_toNat]; omega
  · rw [middleField_toNat, wordB_toNat]; simp; omega
  · rw [byteField_toNat, wordB_toNat]; omega

/-- A word is its opcode and its low field. -/
theorem word_eq_wordC (cw : Word) : cw = wordC (opField cw) (lowField cw) := by
  apply BitVec.eq_of_toNat_eq
  rw [wordC_toNat, opField_toNat, lowField_toNat]; omega

theorem wordN_eq_wordC (op : Byte) : wordN op = wordC op 0 := rfl

theorem word_eq_wordB {cw : Word} (h : middleField cw = 0) : cw = wordB (opField cw) (byteField cw) := by
  have h' : cw.toNat / 2 ^ 8 % 2 ^ 16 = 0 := by rw [← middleField_toNat, h]; rfl
  apply BitVec.eq_of_toNat_eq
  rw [wordB_toNat, opField_toNat, byteField_toNat]; omega

/-- The operand types leave no ill-formed command (R74, R194). -/
theorem wellFormed_all (i : Instr) : i.wellFormed = true := by
  cases i <;> first | rfl | exact decide_eq_true (BitVec.isLt _)

/-! ### The match masks of R71 to R73 -/

theorem wordC_and_mask (op : Byte) (c : Count) : wordC op c &&& 0xFF000000 = wordC op 0 := by
  have h := @BitVec.and_append 8 24 op 0xFF c 0
  have h1 : op &&& 0xFF = op := BitVec.and_allOnes
  have h2 : c &&& 0 = 0 := BitVec.and_zero
  have m : (0xFF000000 : Word) = (0xFF : Byte) ++ (0 : Count) := by decide
  rw [h1, h2] at h
  rw [m]; exact h

theorem wordB_and_mask (op b : Byte) : wordB op b &&& 0xFFFFFF00 = wordB op 0 := by
  have h := @BitVec.and_append 24 8 (op ++ (0 : BitVec 16)) 0xFFFFFF b 0
  have h1 : (op ++ (0 : BitVec 16)) &&& (0xFFFFFF : BitVec 24) = op ++ (0 : BitVec 16) := BitVec.and_allOnes
  have h2 : b &&& 0 = 0 := BitVec.and_zero
  have m : (0xFFFFFF00 : Word) = (0xFFFFFF : BitVec 24) ++ (0 : Byte) := by decide
  rw [h1, h2] at h
  rw [m]; exact h

/-- The mask of format C looks at the opcode alone (R73). -/
theorem opField_of_maskC {cw : Word} {op : Byte} (h : cw &&& 0xFF000000 = wordC op 0) : opField cw = op := by
  rw [word_eq_wordC cw, wordC_and_mask] at h
  have := congrArg opField h
  rwa [(fields_wordC _ _).1, (fields_wordC _ _).1] at this

theorem middleField_mask (cw : Word) : middleField (cw &&& 0xFFFFFF00) = middleField cw := by
  have e : middleField (cw &&& 0xFFFFFF00) = middleField cw &&& middleField 0xFFFFFF00 := BitVec.extractLsb'_and
  have e2 : middleField 0xFFFFFF00 = BitVec.allOnes 16 := by decide
  rw [e, e2, BitVec.and_allOnes]

theorem wordB_zero (op : Byte) : wordB op 0 = wordC op 0 := by
  apply BitVec.eq_of_toNat_eq
  rw [wordB_toNat, wordC_toNat]; simp

/-- The mask of format B looks at the opcode and the must-be-zero field (R72). -/
theorem fields_of_maskB {cw : Word} {op : Byte} (h : cw &&& 0xFFFFFF00 = wordB op 0) :
    opField cw = op ∧ middleField cw = 0 := by
  constructor
  · apply opField_of_maskC
    have m : (0xFFFFFF00 : Word) &&& 0xFF000000 = 0xFF000000 := by decide
    calc cw &&& 0xFF000000 = cw &&& 0xFFFFFF00 &&& 0xFF000000 := by rw [BitVec.and_assoc, m]
      _ = wordB op 0 &&& 0xFF000000 := by rw [h]
      _ = wordC op 0 := by rw [wordB_zero, wordC_and_mask]
  · rw [← middleField_mask, h]; exact (fields_wordB op 0).2.1

/-- The mask of format N looks at the whole word (R71). -/
theorem word_of_maskN {cw v : Word} (h : cw &&& 0xFFFFFFFF = v) : cw = v := by
  rw [← h]; exact BitVec.and_allOnes.symm

end Sys2Proof.Laws
end

