-- ==== Sys2Proof/Laws/Init.lean ====
section
/-! SUPPORT. The key schedule on a loaded key builds the table of the functional schedule `ksaTable`; its frame; and what
`INIT_COMMON` can do. -/

namespace Sys2Proof.Machine

open Sys2Proof.Safety

variable {s t u : State} {M : Space}

@[simp] theorem setMemory_setMemory {m n : Memory} : (s.setMemory M m).setMemory M n = s.setMemory M n := by
  cases M <;> rfl

@[simp] theorem setMemory_self : s.setMemory M (s.memory M) = s := by cases M <;> rfl

/-- The first loop of the key schedule on one memory. -/
def fillMemory : List Nat → Memory → Memory
  | [], m => m
  | n :: ns, m => fillMemory ns (Memory.write n (BitVec.ofNat 8 n) m)

theorem ksaFill_eq {ns : List Nat} : ksaFill M ns s = s.setMemory M (fillMemory ns (s.memory M)) := by
  induction ns generalizing s with
  | nil => simp [ksaFill, fillMemory]
  | cons n ns ih => simp [ksaFill, fillMemory, ih, memWrite]

theorem read_fillMemory {ns : List Nat} {m : Memory} {a : Nat} : Memory.read a (fillMemory ns m) =
    if a ∈ ns then some (BitVec.ofNat 8 a) else Memory.read a m := by
  induction ns generalizing m with
  | nil => simp [fillMemory]
  | cons n ns ih =>
    rw [fillMemory, ih, Memory.read_write]
    by_cases h1 : a ∈ ns
    · simp [h1]
    · by_cases h2 : a = n
      · subst h2; simp
      · simp [h1, h2]

theorem wf_fillMemory {ns : List Nat} {m : Memory} (h : Memory.wf m = true) :
    Memory.wf (fillMemory ns m) = true := by
  induction ns generalizing m with
  | nil => exact h
  | cons n ns ih => exact ih (Memory.wf_write _ _ h)

theorem within_fillMemory {size : Nat} {ns : List Nat} {m : Memory} (hns : ∀ n ∈ ns, n < size)
    (h : Memory.within size m = true) : Memory.within size (fillMemory ns m) = true := by
  induction ns generalizing m with
  | nil => exact h
  | cons n ns ih =>
    exact ih (fun k hk => hns k (List.mem_cons_of_mem _ hk))
      (Memory.within_write _ (hns n List.mem_cons_self) h)

theorem isPermutation_fillMemory {m : Memory} : isPermutation (fillMemory (List.range 256) m) = true := by
  have rd : ∀ a : Byte, Memory.read a.toNat (fillMemory (List.range 256) m) = some a := fun a => by
    rw [read_fillMemory, if_pos (List.mem_range.2 a.isLt)]; simp
  rw [isPermutation_iff, fullTable_iff]
  refine ⟨fun a => ⟨a, rd a⟩, fun a b h => ?_⟩
  rw [rd, rd] at h; exact Option.some.inj h

/-- The second loop changes the memory it works on and nothing else. -/
theorem ksaMix_frame {L : Nat} {hL : 0 < L} {ns : List Nat} {c : Byte}
    (h : ksaMix M L hL ns c s = .ok u) : ∃ m, u = s.setMemory M m := by
  induction ns generalizing s c with
  | nil => exact ⟨s.memory M, by simpa [ksaMix] using h.symm⟩
  | cons n ns ih =>
    simp only [ksaMix, bind_eq_ok, swap_eq_ok] at h
    obtain ⟨x, -, k, -, v, ⟨y, z, -, -, rfl⟩, h⟩ := h
    obtain ⟨m, rfl⟩ := ih h
    exact ⟨m, setMemory_setMemory⟩

/-- The second loop of the key schedule on a loaded key (R102), against its functional form. -/
theorem ksaMix_ok {L : Nat} {hL : 0 < L} {key : Nat → Byte} {ns : List Nat} {c : Byte} {f : Byte → Byte}
    (hM : M ≠ .KEY) (hkey : ∀ n < L, Memory.read n s.KEY = some (key n)) (hns : ∀ n ∈ ns, n < 256)
    (hf : ∀ a : Byte, Memory.read a.toNat (s.memory M) = some (f a)) :
    ∃ m, ksaMix M L hL ns c s = .ok (s.setMemory M m) ∧
      (∀ a : Byte, Memory.read a.toNat m = some (ksaTableFrom key L ns c f a)) ∧
      (Memory.wf (s.memory M) = true → Memory.wf m = true) ∧
      (Memory.within 256 (s.memory M) = true → Memory.within 256 m = true) ∧
      (isPermutation (s.memory M) = true → isPermutation m = true) := by
  induction ns generalizing s c f with
  | nil => exact ⟨s.memory M, by simp [ksaMix], hf, id, id, id⟩
  | cons n ns ih =>
    have hn : n < 256 := hns n List.mem_cons_self
    have hnb : (BitVec.ofNat 8 n).toNat = n := by simp [Nat.mod_eq_of_lt hn]
    have hx : Memory.read n (s.memory M) = some (f (BitVec.ofNat 8 n)) := by
      rw [← hf (BitVec.ofNat 8 n), hnb]
    have hk : Memory.read (keyIndex n L hL) s.KEY = some (key (n % L)) := hkey _ (Nat.mod_lt _ hL)
    generalize ht : add8 (add8 c (f (BitVec.ofNat 8 n))) (key (n % L)) = d
    have ht' : c + f (BitVec.ofNat 8 n) + key (n % L) = d := ht
    have hx' : Memory.read (BitVec.ofNat 8 n).toNat (s.memory M) = some (f (BitVec.ofNat 8 n)) := hf _
    generalize hm : exchanged (BitVec.ofNat 8 n).toNat d.toNat (f (BitVec.ofNat 8 n)) (f d) (s.memory M) = m'
    obtain ⟨m, h1, h2, h3, h4, h5⟩ := ih (s := s.setMemory M m') (c := d)
      (f := exchange f (BitVec.ofNat 8 n) d)
      (by simpa [← State.memory_KEY, State.setMemory_memory_other (Ne.symm hM)] using hkey)
      (fun k hk => hns k (List.mem_cons_of_mem _ hk))
      (fun a => by
        rw [State.setMemory_memory_same, ← hm, read_exchanged hx' (hf d)]
        simp only [exchange, BitVec.toNat_inj]
        split
        · rfl
        · split
          · rfl
          · exact hf a)
    rw [State.setMemory_memory_same] at h3 h4 h5
    refine ⟨m, ?_, ?_, ?_, ?_, ?_⟩
    · rw [ksaMix, memRead_ok hx, ok_bind, memRead_ok (by simpa using hk), ok_bind]
      simp only [ht]
      rw [swap_eq_ok.2 ⟨_, _, hx', hf d, rfl⟩, ok_bind, hm, h1, setMemory_setMemory]
    · intro a; rw [h2, ksaTableFrom, ht']
    · intro h; exact h3 (by rw [← hm]; exact wf_exchanged h)
    · intro h; exact h4 (by rw [← hm]; exact within_exchanged (BitVec.isLt _) d.isLt h)
    · intro h; exact h5 (by rw [← hm]; exact isPermutation_exchanged hx' (hf d) h)

/-- The key schedule of a loaded key (R102): it fills the memory with the table of the functional schedule, which is a
permutation (R38), and changes nothing else. -/
theorem ksa_ok {L : Nat} {hL : 0 < L} {key : Nat → Byte} (hM : M ≠ .KEY)
    (hkey : ∀ n < L, Memory.read n s.KEY = some (key n)) :
    ∃ m, ksa M L hL s = .ok (s.setMemory M m) ∧
      (∀ a : Byte, Memory.read a.toNat m = some (ksaTable key L a)) ∧ isPermutation m = true ∧
      (Memory.wf (s.memory M) = true → Memory.wf m = true) ∧
      (Memory.within 256 (s.memory M) = true → Memory.within 256 m = true) := by
  have hmem : (ksaFill M (List.range Config.permutationSize) s).memory M = fillMemory (List.range 256) (s.memory M) := by
    rw [ksaFill_eq, State.setMemory_memory_same]; rfl
  have hK : (ksaFill M (List.range Config.permutationSize) s).KEY = s.KEY := by
    rw [ksaFill_eq, ← State.memory_KEY, State.setMemory_memory_other (Ne.symm hM), State.memory_KEY]
  obtain ⟨m, h1, h2, h3, h4, h5⟩ := ksaMix_ok (M := M) (L := L) (hL := hL) (key := key) (c := 0)
    (s := ksaFill M (List.range Config.permutationSize) s) (ns := List.range Config.permutationSize)
    (f := fun a => a) hM (by rw [hK]; exact hkey) (fun n hn => List.mem_range.1 hn)
    (fun a => by rw [hmem, read_fillMemory, if_pos (List.mem_range.2 a.isLt)]; simp)
  rw [hmem] at h3 h4 h5
  refine ⟨m, ?_, h2, h5 isPermutation_fillMemory, fun h => h3 (wf_fillMemory h),
    fun h => h4 (within_fillMemory (fun n hn => List.mem_range.1 hn) h)⟩
  rw [ksa, h1, ksaFill_eq, setMemory_setMemory]

theorem ksa_frame {L : Nat} {hL : 0 < L} (h : ksa M L hL s = .ok u) : ∃ m, u = s.setMemory M m := by
  obtain ⟨m, rfl⟩ := ksaMix_frame h
  exact ⟨m, by rw [ksaFill_eq, setMemory_setMemory]⟩

/-- The key schedules of a variant write `S`, and `S2` for RC4A only (R103, R34). -/
theorem scheduleKeys_frame {v : Variant} {L : Nat} {hL : 0 < L} (h : scheduleKeys v L hL s = .ok u) :
    u = { s with S := u.S, S2 := u.S2 } ∧ (v ≠ .rc4a → u.S2 = s.S2) := by
  simp only [scheduleKeys, bind_eq_ok] at h
  obtain ⟨w, hw, h⟩ := h
  obtain ⟨m, rfl⟩ := ksa_frame hw
  split at h
  case isTrue hv =>
    obtain ⟨m2, rfl⟩ := ksa_frame h
    exact ⟨rfl, fun hn => absurd hv hn⟩
  case isFalse hv =>
    simp only [pure_eq_ok, Except.ok.injEq] at h
    subst h; exact ⟨rfl, fun _ => rfl⟩

/-- The key bytes of a loaded key, as a function. -/
theorem keyLoaded_iff : keyLoaded s = true ↔
    ∃ key : Nat → Byte, ∀ n < s.klen.val, Memory.read n s.KEY = some (key n) := by
  simp only [keyLoaded, List.all_eq_true, List.mem_range, Option.isSome_iff_exists]
  constructor
  · intro h
    refine ⟨fun n => (Memory.read n s.KEY).getD 0, fun n hn => ?_⟩
    obtain ⟨v, hv⟩ := h n hn; simp [hv]
  · rintro ⟨key, h⟩ n hn; exact ⟨_, h n hn⟩

/-- What `INIT_COMMON` does on an empty key (R191). -/
theorem initCommon_empty {v : Variant} {n : Count} (h : s.klen.val = 0) :
    initCommon v n s = .next (raise .emptyKey s) := by
  rw [initCommon, dif_pos h]

/-- What `INIT_COMMON` does on a key (R103): the schedules, the registers, then `n` discarded steps. -/
theorem initCommon_eq_next {v : Variant} {n : Count} (h : s.klen.val ≠ 0) : initCommon v n s = .next t ↔
    ∃ u, scheduleKeys v s.klen.val (Nat.pos_of_ne_zero h) s = .ok u ∧
      discardSteps n (startInstance v u) = .ok t := by
  rw [initCommon, dif_neg h, finish_eq_next, bind_eq_ok]

end Sys2Proof.Machine
end

