-- ==== Sys2Proof/Laws/Exec.lean ====
section
/-! SUPPORT. What the commands that share an operation can do: the INIT commands by `initCommon`, the stepping commands by a
number of steps. -/

namespace Sys2Proof.Machine

open Sys2Proof.Safety

variable {i : Instr} {s t u : State}

theorem isInit_cases (h : isInit i = true) : i = .initIv ∨ ∃ v c, i = initOf v c := by
  cases i <;> simp [isInit] at h
  · exact .inr ⟨.rc4, _, rfl⟩
  · exact .inr ⟨.rc4a, _, rfl⟩
  · exact .inr ⟨.vmpc, _, rfl⟩
  · exact .inr ⟨.rc4p, _, rfl⟩
  · exact .inr ⟨.rc4drop, _, rfl⟩
  · exact .inl rfl

theorem exec_initOf (v : Variant) (c : Count) (s : State) : exec (initOf v c) s = initCommon v c s := by
  cases v <;> rfl

/-- INIT.IV on a key: the derived skip is computed, then INIT.RC4 runs with it (R155). -/
theorem exec_initIv_eq_next (h : s.klen.val ≠ 0) : exec .initIv s = .next t ↔
    ∃ n, ivSkip s = .ok n ∧ exec (.initRc4 (BitVec.ofNat 24 n)) s = .next t := by
  have e : exec .initIv s = match ivSkip s with
      | .ok n => initCommon .rc4 (BitVec.ofNat 24 n) s
      | .error f => .fault f := if_neg h
  rw [e]
  cases ivSkip s with
  | error f => simp
  | ok n => simp [exec, execInitRc4]

theorem exec_init_empty (h : isInit i = true) (hk : s.klen.val = 0) : exec i s = .next (raise .emptyKey s) := by
  rcases isInit_cases h with rfl | ⟨v, c, rfl⟩
  · exact if_pos hk
  · rw [exec_initOf, initCommon_empty hk]

/-- The registers after the schedules of `INIT_COMMON`, as one equation (R103). -/
theorem startInstance_eq {v : Variant} : startInstance v s =
    { s with i := 0, j := 0, j2 := 0, ph := .first, var := v, keyed := true } := rfl

theorem exec_stepping_unkeyed (h : isStepping i = true) (hk : s.keyed = false) :
    exec i s = .next (raise .notKeyed s) := by
  cases i <;> simp [isStepping] at h <;> exact if_pos hk

theorem whenKeyed_keyed {r : Except Fault State} (h : s.keyed = true) : whenKeyed s r = finish r :=
  if_neg (by simp [h])

/-- Everything a stepping command can do on an instance: some steps, CNT written, bytes appended to OUT. -/
theorem exec_stepping (h : isStepping i = true) (hk : s.keyed = true) (hx : exec i s = .next t) :
    ∃ n bs u cs c, steps n s = .ok (bs, u) ∧ t = (u.setCnt c).setOut (s.out ++ cs) ∧ cs.length = emitted i := by
  cases i <;> simp [isStepping] at h
  case gen =>
    obtain ⟨⟨k, u⟩, h1, h2⟩ := bind_eq_ok.1 (finish_eq_next.1 ((whenKeyed_keyed hk).symm.trans hx))
    refine ⟨1, [k], u, [k], u.cnt, steps_succ_eq_ok.2 ⟨k, u, [], h1, rfl, rfl⟩, ?_, rfl⟩
    rw [← Except.ok.inj h2, ← stepCipher_out h1]; rfl
  case xorb b =>
    obtain ⟨⟨k, u⟩, h1, h2⟩ := bind_eq_ok.1 (finish_eq_next.1 ((whenKeyed_keyed hk).symm.trans hx))
    refine ⟨1, [k], u, [b ^^^ k], u.cnt, steps_succ_eq_ok.2 ⟨k, u, [], h1, rfl, rfl⟩, ?_, rfl⟩
    rw [← Except.ok.inj h2, ← stepCipher_out h1]; rfl
  case genn n =>
    obtain ⟨bs, u, h1, rfl⟩ := emitSteps_eq_ok.1 (finish_eq_next.1 ((whenKeyed_keyed hk).symm.trans hx))
    exact ⟨_, bs, u, bs, 0, h1, rfl, steps_length h1⟩
  case drop n =>
    obtain ⟨bs, u, h1, rfl⟩ := discardSteps_eq_ok.1 (finish_eq_next.1 ((whenKeyed_keyed hk).symm.trans hx))
    refine ⟨_, bs, u, [], 0, h1, ?_, rfl⟩
    rw [← steps_frame h1]; simp [carry, State.setCnt, State.setOut]

/-- GEN on an instance is one step and one byte (R166). -/
theorem exec_gen {k : Byte} (hk : s.keyed = true) (h : stepCipher s = .ok (k, u)) :
    exec .gen s = .next (u.setOut (s.out ++ [k])) := by
  refine (whenKeyed_keyed hk).trans ?_
  rw [h, ← stepCipher_out h]; rfl

/-- XORB on an instance is one step and one byte (R168). -/
theorem exec_xorb {k b : Byte} (hk : s.keyed = true) (h : stepCipher s = .ok (k, u)) :
    exec (.xorb b) s = .next (u.setOut (s.out ++ [b ^^^ k])) := by
  refine (whenKeyed_keyed hk).trans ?_
  rw [h, ← stepCipher_out h]; rfl

/-- GENN on an instance is `n` steps and their bytes (R167). -/
theorem exec_genn {n : Count} {bs : List Byte} (hk : s.keyed = true) (h : steps n.toNat s = .ok (bs, u)) :
    exec (.genn n) s = .next ((u.setCnt 0).setOut (s.out ++ bs)) := by
  refine (whenKeyed_keyed hk).trans ?_
  rw [emitSteps_eq_ok.2 ⟨bs, u, h, rfl⟩]; rfl

/-- DROP on an instance is `n` steps (R151). -/
theorem exec_drop {n : Count} {bs : List Byte} (hk : s.keyed = true) (h : steps n.toNat s = .ok (bs, u)) :
    exec (.drop n) s = .next (u.setCnt 0) := by
  refine (whenKeyed_keyed hk).trans ?_
  rw [discardSteps_eq_ok.2 ⟨bs, u, h, rfl⟩]; rfl

/-- An INIT command on a loaded key (R103): the table of the schedule, then the steps of the skip. -/
theorem exec_initOf_ok {v : Variant} {c : Count} {key : Nat → Byte} (h : s.klen.val ≠ 0)
    (hkey : ∀ n < s.klen.val, Memory.read n s.KEY = some (key n)) :
    ∃ u bs w, scheduleKeys v s.klen.val (Nat.pos_of_ne_zero h) s = .ok u ∧
      (∀ a : Byte, Memory.read a.toNat u.S = some (ksaTable key s.klen.val a)) ∧ isPermutation u.S = true ∧
      (v = .rc4a → (∀ a : Byte, Memory.read a.toNat u.S2 = some (ksaTable key s.klen.val a)) ∧
        isPermutation u.S2 = true) ∧
      (canonical s = true → canonical u = true) ∧
      steps c.toNat (startInstance v u) = .ok (bs, w) ∧ exec (initOf v c) s = .next (w.setCnt 0) := by
  obtain ⟨m, h1, h2, h3, h4, h5⟩ := ksa_ok (M := .S) (s := s) (hL := Nat.pos_of_ne_zero h) (by simp) hkey
  suffices ∃ u, scheduleKeys v s.klen.val (Nat.pos_of_ne_zero h) s = .ok u ∧
      (∀ a : Byte, Memory.read a.toNat u.S = some (ksaTable key s.klen.val a)) ∧ isPermutation u.S = true ∧
      (v = .rc4a → (∀ a : Byte, Memory.read a.toNat u.S2 = some (ksaTable key s.klen.val a)) ∧
        isPermutation u.S2 = true) ∧
      (canonical s = true → canonical u = true) by
    obtain ⟨u, g1, g2, g3, g4, g5⟩ := this
    have hu : usable (startInstance v u) = true :=
      usable_iff.2 ⟨rfl, fullTable_of_isPermutation g3, fun hv => fullTable_of_isPermutation (g4 hv).2⟩
    obtain ⟨bs, w, hw, -⟩ := steps_usable c.toNat hu
    refine ⟨u, bs, w, g1, g2, g3, g4, g5, hw, ?_⟩
    rw [exec_initOf, initCommon_eq_next h]
    exact ⟨u, g1, discardSteps_eq_ok.2 ⟨bs, w, hw, rfl⟩⟩
  by_cases hv : v = .rc4a
  · obtain ⟨m2, k1, k2, k3, k4, k5⟩ := ksa_ok (M := .S2) (s := s.setMemory .S m) (hL := Nat.pos_of_ne_zero h)
      (by simp) (by simpa using hkey)
    refine ⟨_, by rw [scheduleKeys, h1, ok_bind, if_pos hv, k1], ?_, ?_, fun _ => ⟨?_, ?_⟩, ?_⟩
    · simpa using h2
    · simpa using h3
    · simpa using k2
    · simpa using k3
    · simp only [canonical, canonicalMemory, Bool.and_eq_true]
      rintro ⟨⟨⟨⟨a1, a2⟩, b1, b2⟩, c1⟩, d1⟩
      exact ⟨⟨⟨⟨h4 a1, h5 a2⟩, k4 b1, k5 b2⟩, c1⟩, d1⟩
  · refine ⟨_, by rw [scheduleKeys, h1, ok_bind, if_neg hv]; rfl, ?_, ?_, fun hn => absurd hn hv, ?_⟩
    · simpa using h2
    · simpa using h3
    · simp only [canonical, canonicalMemory, Bool.and_eq_true]
      rintro ⟨⟨⟨⟨a1, a2⟩, b1⟩, c1⟩, d1⟩
      exact ⟨⟨⟨⟨h4 a1, h5 a2⟩, b1⟩, c1⟩, d1⟩

/-- The frame of `INIT_COMMON` (R103): buffers, fault code, OUT and port stay; `S2` is written for RC4A only. -/
theorem initCommon_frame {v : Variant} {c : Count} (h : s.klen.val ≠ 0) (hx : initCommon v c s = .next t) :
    t = { s with i := t.i, j := t.j, j2 := t.j2, ph := t.ph, var := v, keyed := true, cnt := 0,
                 S := t.S, S2 := t.S2 } ∧
      (v ≠ .rc4a → t.S2 = s.S2 ∧ t.j2 = 0 ∧ t.ph = .first) := by
  obtain ⟨u, h1, h2⟩ := (initCommon_eq_next h).1 hx
  obtain ⟨bs, w, h3, rfl⟩ := discardSteps_eq_ok.1 h2
  obtain ⟨f1, f2⟩ := scheduleKeys_frame h1
  constructor
  · have e : w.var = v := steps_var h3
    rw [← steps_frame h3, f1]
    simp [carry, startInstance_eq, State.setCnt, e]
  · intro hv
    obtain ⟨a, b, c⟩ := steps_notRc4a (s := startInstance v u) hv h3
    exact ⟨c.trans (f2 hv), a, b⟩

/-- The IV sum of a loaded IV (R154). -/
theorem ivSum_ok {iv : Nat → Byte} {ks : List Nat} {acc : Nat}
    (h : ∀ k ∈ ks, Memory.read k s.IV = some (iv k)) :
    ivSum ks acc s = .ok (acc + (ks.map fun k => (iv k).toNat * 2 ^ k).sum) := by
  induction ks generalizing acc with
  | nil => simp [ivSum]
  | cons k ks ih =>
    rw [ivSum, memRead_ok (h k List.mem_cons_self), ok_bind, ih fun k hk => h k (List.mem_cons_of_mem _ hk)]
    simp; omega

end Sys2Proof.Machine
end

