-- ==== Sys2Proof/Laws/Outer.lean ====
section
/-! SUPPORT. OUT and the host's inputs are not read by the key schedule, the steps or the IV sum: each runs alike whatever
they hold. -/

namespace Sys2Proof.Machine

variable {s t u : State} {M : Space}

/-- The state with another OUT and other inputs of the host. -/
def withOuter (o : List Byte) (p : List HostInput) (s : State) : State := { s with out := o, port := p }

@[simp] theorem withOuter_memory {o : List Byte} {p : List HostInput} : (withOuter o p s).memory M = s.memory M := by
  cases M <;> rfl

@[simp] theorem withOuter_setMemory {o : List Byte} {p : List HostInput} {m : Memory} :
    (withOuter o p s).setMemory M m = withOuter o p (s.setMemory M m) := by cases M <;> rfl

theorem steps_withOuter {n : Nat} {bs : List Byte} (o : List Byte) (p : List HostInput)
    (h : steps n s = .ok (bs, t)) : steps n (withOuter o p s) = .ok (bs, withOuter o p t) := by
  have h1 := steps_carry (withOuter o p s) h
  rw [← steps_frame h]; exact h1

theorem ksaMix_withOuter {L : Nat} {hL : 0 < L} {ns : List Nat} {c : Byte} (o : List Byte) (p : List HostInput)
    (h : ksaMix M L hL ns c s = .ok u) : ksaMix M L hL ns c (withOuter o p s) = .ok (withOuter o p u) := by
  induction ns generalizing s c with
  | nil => obtain rfl := Except.ok.inj h; rfl
  | cons n ns ih =>
    simp only [ksaMix, bind_eq_ok, swap_eq_ok, memRead_eq_ok] at h ⊢
    obtain ⟨x, hx, k, hk, v, ⟨y, z, hy, hz, rfl⟩, h⟩ := h
    refine ⟨x, by simpa using hx, k, by simpa using hk, _, ⟨y, z, by simpa using hy, by simpa using hz, rfl⟩, ?_⟩
    simpa using ih h

theorem ksa_withOuter {L : Nat} {hL : 0 < L} (o : List Byte) (p : List HostInput) (h : ksa M L hL s = .ok u) :
    ksa M L hL (withOuter o p s) = .ok (withOuter o p u) := by
  have h1 := ksaMix_withOuter o p h
  rw [ksaFill_eq] at h1
  rw [ksa, ksaFill_eq, withOuter_setMemory, withOuter_memory]; exact h1

theorem scheduleKeys_withOuter {v : Variant} {L : Nat} {hL : 0 < L} (o : List Byte) (p : List HostInput)
    (h : scheduleKeys v L hL s = .ok u) : scheduleKeys v L hL (withOuter o p s) = .ok (withOuter o p u) := by
  simp only [scheduleKeys, bind_eq_ok] at h ⊢
  obtain ⟨w, hw, h⟩ := h
  refine ⟨_, ksa_withOuter o p hw, ?_⟩
  split at h
  case isTrue hv => rw [if_pos hv]; exact ksa_withOuter o p h
  case isFalse hv => obtain rfl := Except.ok.inj h; rw [if_neg hv]; rfl

/-- The procedure of the INIT commands on a key, whatever OUT and the host's inputs hold (R103). -/
theorem initCommon_withOuter {v : Variant} {n : Count} (o : List Byte) (p : List HostInput) (hk : s.klen.val ≠ 0)
    (h : initCommon v n s = .next t) : initCommon v n (withOuter o p s) = .next (withOuter o p t) := by
  obtain ⟨u, h1, h2⟩ := (initCommon_eq_next hk).1 h
  obtain ⟨bs, w, h3, rfl⟩ := discardSteps_eq_ok.1 h2
  refine (initCommon_eq_next (s := withOuter o p s) hk).2 ⟨_, scheduleKeys_withOuter o p h1, ?_⟩
  exact discardSteps_eq_ok.2 ⟨bs, _, steps_withOuter o p h3, rfl⟩

theorem ivSum_withOuter {ks : List Nat} {acc : Nat} (o : List Byte) (p : List HostInput) :
    ivSum ks acc (withOuter o p s) = ivSum ks acc s := by
  induction ks generalizing acc with
  | nil => rfl
  | cons k ks ih => simp only [ivSum, memRead, withOuter_memory, ih]

end Sys2Proof.Machine
end

