-- ==== Sys2Proof/Laws/PerInstr.lean ====
section
/-! SUPPORT. The family `OwnRow`: the encoded word of every instruction belongs to the row of the opcode map that bears its
mnemonic (30_encoding.md R75), one lemma per constructor. -/

namespace Sys2Proof.Laws

open Sys2Proof

namespace OwnRow

/-- The instruction's word matches the row of its mnemonic. -/
def Statement (i : Instr) : Prop :=
  ∃ r ∈ opcodeMap, r.mnemonic = i.mnemonic ∧ r.matches (encode i) = true

theorem nop : Statement .nop := by
  exact ⟨opcodeMap[0], List.getElem_mem _, rfl, rfl⟩

theorem zero : Statement .zero := by
  exact ⟨opcodeMap[1], List.getElem_mem _, rfl, rfl⟩

theorem kclr : Statement .kclr := by
  exact ⟨opcodeMap[2], List.getElem_mem _, rfl, rfl⟩

theorem keyb (b : Byte) : Statement (.keyb b) := by
  exact ⟨opcodeMap[3], List.getElem_mem _, rfl, beq_iff_eq.2 (wordB_and_mask _ b)⟩

theorem ivclr : Statement .ivclr := by
  exact ⟨opcodeMap[4], List.getElem_mem _, rfl, rfl⟩

theorem ivb (b : Byte) : Statement (.ivb b) := by
  exact ⟨opcodeMap[5], List.getElem_mem _, rfl, beq_iff_eq.2 (wordB_and_mask _ b)⟩

theorem initRc4 (c : Count) : Statement (.initRc4 c) := by
  exact ⟨opcodeMap[6], List.getElem_mem _, rfl, beq_iff_eq.2 (wordC_and_mask _ c)⟩

theorem initRc4a (c : Count) : Statement (.initRc4a c) := by
  exact ⟨opcodeMap[7], List.getElem_mem _, rfl, beq_iff_eq.2 (wordC_and_mask _ c)⟩

theorem initVmpc (c : Count) : Statement (.initVmpc c) := by
  exact ⟨opcodeMap[8], List.getElem_mem _, rfl, beq_iff_eq.2 (wordC_and_mask _ c)⟩

theorem initRc4p (c : Count) : Statement (.initRc4p c) := by
  exact ⟨opcodeMap[9], List.getElem_mem _, rfl, beq_iff_eq.2 (wordC_and_mask _ c)⟩

theorem initDrop (c : Count) : Statement (.initDrop c) := by
  exact ⟨opcodeMap[10], List.getElem_mem _, rfl, beq_iff_eq.2 (wordC_and_mask _ c)⟩

theorem initIv : Statement .initIv := by
  exact ⟨opcodeMap[11], List.getElem_mem _, rfl, rfl⟩

theorem gen : Statement .gen := by
  exact ⟨opcodeMap[12], List.getElem_mem _, rfl, rfl⟩

theorem xorb (b : Byte) : Statement (.xorb b) := by
  exact ⟨opcodeMap[13], List.getElem_mem _, rfl, beq_iff_eq.2 (wordB_and_mask _ b)⟩

theorem genn (c : Count) : Statement (.genn c) := by
  exact ⟨opcodeMap[14], List.getElem_mem _, rfl, beq_iff_eq.2 (wordC_and_mask _ c)⟩

theorem drop (c : Count) : Statement (.drop c) := by
  exact ⟨opcodeMap[15], List.getElem_mem _, rfl, beq_iff_eq.2 (wordC_and_mask _ c)⟩

end OwnRow

end Sys2Proof.Laws
end

