-- ==== Sys2Proof/Tests/Slice0.lean ====
section
/-! SUPPORT. The model's own tests. Expected results come from spec/: the encodings of 30_encoding.md, the worked examples of
the rules, and the tables of 95_test_vectors.md. Memories hold only the entries an example reads. Then the witnesses: for each
statement with hypotheses, a state and operands that meet them. -/

namespace Sys2Proof.Tests

open Sys2Proof.Machine Sys2Proof.Safety

/-! ### Helpers -/

/-- One thing about the next state, where there is one. -/
def view {α : Type} (f : State → α) : Host.Outcome State Fault Refusal → Option α
  | .next s => some (f s)
  | .fault _ => none
  | .refused _ => none

/-- A keyed block of variant `v` with the given entries of `S` and `S2`, counters 0. -/
def keyedWith (v : Variant) (S S2 : Memory) : State :=
  { State.reset with var := v, keyed := true, S := S, S2 := S2 }

/-- The table with every entry equal to its index. -/
@[irreducible] def identityTable : Memory := fillMemory (List.range 256) []

/-- A keyed block whose tables are both the identity. -/
def full (v : Variant) : State := keyedWith v identityTable identityTable

/-- The block after reset with the key "key" loaded (95 V1). -/
def keyState : State :=
  { State.reset with klen := 3, KEY := [(0, 107), (1, 101), (2, 121)] }

/-- The block after reset with a word presented. -/
def presenting (cw : Word) : State := { State.reset with port := [.command cw] }

/-! ### Well-formedness: the ill-formed words of 95 F8 to F15, one for each way to be ill-formed -/

theorem test_illformed_unassigned : wordLegal 0x02000000 = false ∧ wordLegal 0xFFFFFFFF = false ∧
    wordLegal 0x24000000 = false ∧ wordLegal 0x16000000 = false ∧ wordLegal 0x0C000000 = false := by decide

theorem test_illformed_zero_field_N : wordLegal 0x00000001 = false ∧ wordLegal 0x20000001 = false ∧
    wordLegal 0x15000001 = false ∧ wordLegal 0x01000001 = false := by decide

theorem test_illformed_zero_field_B : wordLegal 0x09000100 = false ∧ wordLegal 0x21800000 = false := by decide

theorem test_wellformed_words : wordLegal 0x00000000 = true ∧ wordLegal 0x090000FF = true ∧
    wordLegal 0x10FFFFFF = true := by decide

/-- No word belongs to two rows of the map. -/
theorem test_rows_disjoint :
    opcodeMap.Pairwise fun r q => r.value &&& (r.mask &&& q.mask) ≠ q.value &&& (r.mask &&& q.mask) := by decide

/-! ### Decoding: each constructor's word, from R71 to R75 -/

theorem test_decode_control : decode 0x00000000 = .ok .nop ∧ decode 0x01000000 = .ok .zero := by decide

theorem test_decode_key : decode 0x08000000 = .ok .kclr ∧ decode 0x0900006B = .ok (.keyb 0x6B) := by decide

theorem test_decode_iv : decode 0x0A000000 = .ok .ivclr ∧ decode 0x0B000012 = .ok (.ivb 0x12) := by decide

theorem test_decode_init : decode 0x10000000 = .ok (.initRc4 0) ∧ decode 0x110004D2 = .ok (.initRc4a 1234) ∧
    decode 0x12000004 = .ok (.initVmpc 4) ∧ decode 0x13FFFFFF = .ok (.initRc4p 16777215) ∧
    decode 0x14000300 = .ok (.initDrop 768) ∧ decode 0x15000000 = .ok .initIv := by decide

theorem test_decode_stream : decode 0x20000000 = .ok .gen ∧ decode 0x21000074 = .ok (.xorb 0x74) ∧
    decode 0x22000003 = .ok (.genn 3) ∧ decode 0x23001000 = .ok (.drop 4096) := by decide

theorem test_decode_reject : decode 0xFFFFFFFF = .error .unassignedOpcode ∧
    decode 0x24000000 = .error .unassignedOpcode ∧ decode 0x00000001 = .error .nonZeroField ∧
    decode 0x09000100 = .error .nonZeroField := by decide

/-- The words of 95 P-B and P-A, from the assembler's side. -/
theorem test_encode : encode (.keyb 0x4B) = 0x0900004B ∧ encode .initIv = 0x15000000 ∧
    encode (.initDrop 1936) = 0x14000790 ∧ pseudoInit .rc4drop = [.initDrop 768] ∧
    pseudoInit .vmpc = [.initVmpc 0] := by decide

theorem test_table_word : decodeTableWord 32 0x21000074 = some (.xorb 0x74) ∧ decodeTableWord 32 0x02000000 = none := by
  decide

/-- A placed word is what the next step runs: IVB 0x12 right after reset (R153's example). -/
theorem test_withFetchWord :
    view (fun t => (t.ivlen, t.IV)) (step (State.reset.withFetchWord 32 0x0B000012)) = some (1, [(0, 0x12)]) := by decide

/-! ### One step of each variant: the worked examples of the step rules, key "key", entries of 95 T1 -/

/-- R110: i = 1, j = 195, k = 11, S[1] = 149, S[195] = 195. -/
theorem test_gen_rc4 : view (fun t => (t.i, t.j, t.out, t.S))
    (exec .gen (keyedWith .rc4 [(1, 195), (88, 11), (195, 149)] [])) =
    some (1, 195, [11], [(1, 149), (88, 11), (195, 195)]) := by decide

/-- R120, step 1: FIRST phase, the byte from `S2`. -/
theorem test_gen_rc4a_first : view (fun t => ((t.i, t.j, t.ph), t.out, t.S))
    (exec .gen (keyedWith .rc4a [(1, 195), (195, 149)] [(1, 195), (88, 11), (195, 149)])) =
    some ((1, 195, .second), [11], [(1, 149), (195, 195)]) := by decide

/-- R120, step 2: SECOND phase, the byte from `S`, `i` not advanced. -/
theorem test_gen_rc4a_second : view (fun t => ((t.i, t.j2, t.ph), t.out, t.S2))
    (exec .gen { keyedWith .rc4a [(88, 11)] [(1, 195), (195, 149)] with i := 1, j := 195, ph := .second }) =
    some ((1, 195, .first), [11], [(1, 149), (195, 195)]) := by decide

/-- R130: j = 181, k = 103, S[0] = 117, S[181] = 107, i = 1. -/
theorem test_gen_vmpc : view (fun t => (t.i, t.j, t.out, t.S))
    (exec .gen (keyedWith .vmpc [(0, 107), (107, 181), (117, 191), (181, 117), (192, 103)] [])) =
    some (1, 181, [103], [(0, 117), (107, 181), (117, 191), (181, 107), (192, 103)]) := by decide

/-- R140, first step: k = 83. -/
theorem test_gen_rc4p : view (fun t => (t.i, t.j, t.out, t.S))
    (exec .gen (keyedWith .rc4p [(1, 195), (13, 77), (56, 23), (88, 11), (96, 205), (195, 149)] [])) =
    some (1, 195, [83], [(1, 149), (13, 77), (56, 23), (88, 11), (96, 205), (195, 195)]) := by decide

/-- R140, second step: i = 2, j = 34, k = 170. -/
theorem test_gen_rc4p_second : view (fun t => (t.i, t.j, t.out)) (exec .gen { keyedWith .rc4p
      [(2, 95), (34, 96), (64, 113), (68, 120), (130, 90), (191, 108), (226, 132)] [] with i := 1, j := 195 }) =
    some (2, 34, [170]) := by decide

/-- 95 M3: the index mixing. -/
theorem test_mix : mix 1 195 = 56 ∧ mix 195 1 = 96 ∧ mix 255 255 = 255 ∧ mix 8 0 = 0 ∧ mix 0 8 = 1 := by decide

/-! ### The stepping commands: 95 V1, table A -/

/-- R168: `116 XOR 11 = 127`. -/
theorem test_xorb : view (fun t => (t.i, t.j, t.out))
    (exec (.xorb 0x74) (keyedWith .rc4 [(1, 195), (88, 11), (195, 149)] [])) = some (1, 195, [127]) := by decide

/-- Table A, steps 1 and 2. -/
theorem test_genn : view (fun t => (t.i, t.j, t.cnt, t.out)) (exec (.genn 2)
      (keyedWith .rc4 [(1, 195), (2, 95), (34, 96), (88, 11), (191, 108), (195, 149)] [])) =
    some (2, 34, 0, [11, 108]) := by decide

/-- The same two steps discarded, for the tag RC4DROP. -/
theorem test_drop : view (fun t => (t.i, t.j, t.cnt, t.out)) (exec (.drop 2)
      (keyedWith .rc4drop [(1, 195), (2, 95), (34, 96), (88, 11), (191, 108), (195, 149)] [])) =
    some (2, 34, 0, []) := by decide

/-! ### Key schedule and IV -/

/-- 95 K1, the first three turns: t = 107, 209, 76. -/
theorem test_ksaMix : (match ksaMix .S 3 (by decide) [0, 1, 2] 0
      { keyState with S := [(0, 0), (1, 1), (2, 2), (76, 76), (107, 107), (209, 209)] } with
    | .ok t => some t.S
    | .error _ => none) = some [(0, 107), (1, 209), (2, 76), (76, 2), (107, 0), (209, 1)] := by decide

/-- 95 I1, I2, I5, I10. -/
theorem test_ivSkip :
    (ivSkip State.reset).toOption = some 0 ∧
    (ivSkip { State.reset with ivlen := 1, IV := [(0, 0)] }).toOption = some 510 ∧
    (ivSkip { State.reset with ivlen := 2, IV := [(0, 1), (1, 1)] }).toOption = some 513 ∧
    (ivSkip { State.reset with ivlen := 4, IV := [(0, 0x12), (1, 0x34), (2, 0x56), (3, 0x78)] }).toOption =
      some 1936 := by decide

/-- 95 I7: sixteen bytes of 0xFF. -/
theorem test_ivSkip_largest : (ivSkip { State.reset with
    ivlen := 16, IV := (List.range 16).map fun k => (k, 0xFF) }).toOption = some 255 := by decide

/-- R101: the 257th byte is ignored, the 256th is not. -/
theorem test_keyb_limit :
    view (fun t => (t.klen, t.KEY)) (exec (.keyb 0xAA) { State.reset with klen := 256 }) = some (256, []) ∧
    view (fun t => (t.klen, t.KEY)) (exec (.keyb 0xAA) { State.reset with klen := 255 }) =
      some (256, [(255, 0xAA)]) := by decide

/-- 95 I8: the seventeenth IV byte is ignored. -/
theorem test_ivb_limit :
    view (fun t => (t.ivlen, t.IV)) (exec (.ivb 0xFF) { State.reset with ivlen := 16 }) = some (16, []) ∧
    view (fun t => (t.ivlen, t.IV)) (exec (.ivb 0xFF) { State.reset with ivlen := 15 }) =
      some (16, [(15, 0xFF)]) := by decide

theorem test_clear : view (fun t => (t.klen, t.KEY)) (exec .kclr keyState) = some (0, keyState.KEY) ∧
    view (fun t => (t.ivlen, t.IV)) (exec .ivclr { State.reset with ivlen := 2, IV := [(0, 1), (1, 2)] }) =
      some (0, [(0, 1), (1, 2)]) := by decide

/-! ### Faults: 95 F1 to F17 -/

/-- F1 to F4: NOT_KEYED. -/
theorem test_not_keyed : view (fun t => (t.status, t.out)) (step (presenting 0x20000000)) = some (0x20, []) ∧
    view State.status (step (presenting 0x21000041)) = some 0x20 ∧
    view State.status (step (presenting 0x22000000)) = some 0x20 ∧
    view State.status (step (presenting 0x23000000)) = some 0x20 := by decide

/-- F5, F7: EMPTY_KEY, also with an IV loaded. -/
theorem test_empty_key : view State.status (step (presenting 0x10000000)) = some 0x10 ∧
    view State.status (step (presenting 0x11000005)) = some 0x10 ∧
    view State.status (step (presenting 0x12000000)) = some 0x10 ∧
    view State.status (step (presenting 0x13000000)) = some 0x10 ∧
    view State.status (step (presenting 0x14000300)) = some 0x10 ∧
    view (fun t => (t.status, t.ivlen)) (step { presenting 0x15000000 with ivlen := 1 }) = some (0x10, 1) := by decide

/-- F8 to F14: ILLEGAL_CMD, and not the fault the command would raise. -/
theorem test_illegal : view State.status (step (presenting 0x02000000)) = some 0x30 ∧
    view State.status (step (presenting 0x20000001)) = some 0x30 ∧
    view State.status (step (presenting 0x15000001)) = some 0x30 ∧
    view (fun t => (t.status, t.klen)) (step (presenting 0x09000100)) = some (0x30, 0) := by decide

/-- F16: a faulted block ignores GEN and a ZERO with a non-zero field; ZERO recovers it and keeps OUT. -/
theorem test_faulted : view (fun t => (t.status, t.out))
      (step { keyedWith .rc4 [] [] with ecode := .illegalCmd, out := [11], port := [.command 0x20000000] }) =
      some (0x31, [11]) ∧
    view (fun t => (t.status, t.out))
      (step { keyedWith .rc4 [] [] with ecode := .illegalCmd, out := [11], port := [.command 0x01000001] }) =
      some (0x31, [11]) ∧
    view (fun t => (t.status, t.out, t.keyed))
      (step { keyedWith .rc4 [] [] with ecode := .illegalCmd, out := [11], port := [.command 0x01000000] }) =
      some (0x00, [11], false) := by decide

/-- F17: EMPTY_KEY on a keyed block keeps the instance: STATUS = 0x11. -/
theorem test_empty_key_keyed : view (fun t => (t.status, t.S))
    (exec (.initVmpc 0) (keyedWith .rc4 [(0, 107)] [])) = some (0x11, [(0, 107)]) := by decide

/-- R29: after INIT.RC4A the status reads 0x03, after INIT.DROP 0x09. -/
theorem test_status : (keyedWith .rc4a [] []).status = 0x03 ∧ (keyedWith .rc4drop [] []).status = 0x09 := by decide

/-- 95 Z1, Z2. -/
theorem test_control : view id (exec .nop keyState) = some keyState ∧
    view (fun t => (Memory.read 15 t.IV, Memory.read 16 t.IV, t.klen)) (exec .zero keyState) =
      some (some 0, none, 0) := by decide

/-- R220: reset leaves the state after reset and the host's later inputs. -/
theorem test_reset : view id (step { keyState with out := [1], port := [.reset, .command 0] }) =
    some { State.reset with port := [.command 0] } := by decide

/-! ### Witnesses: states and operands that meet the hypotheses of the statements -/

theorem identity_perm : isPermutation identityTable = true := by
  unfold identityTable; exact isPermutation_fillMemory

theorem identity_wf : Memory.wf identityTable = true := by
  unfold identityTable; exact wf_fillMemory (m := []) rfl

theorem identity_within : Memory.within 256 identityTable = true := by
  unfold identityTable; exact within_fillMemory (m := []) (fun n hn => List.mem_range.1 hn) rfl

theorem full_perm (v : Variant) : isPermutation (full v).S = true ∧ isPermutation (full v).S2 = true :=
  ⟨identity_perm, identity_perm⟩

theorem full_table (v : Variant) : fullTable (full v).S = true ∧ fullTable (full v).S2 = true :=
  ⟨fullTable_of_isPermutation identity_perm, fullTable_of_isPermutation identity_perm⟩

theorem full_usable (v : Variant) : usable (full v) = true :=
  usable_iff.2 ⟨rfl, (full_table v).1, fun _ => (full_table v).2⟩

theorem full_canonical (v : Variant) : canonical (full v) = true := by
  refine canonical_iff.2 fun M => ?_
  cases M
  · exact ⟨identity_wf, identity_within⟩
  · exact ⟨identity_wf, identity_within⟩
  · exact ⟨rfl, rfl⟩
  · exact ⟨rfl, rfl⟩

theorem full_inv (v : Variant) : Inv (full v) where
  canon := full_canonical v
  key := rfl
  iv := rfl
  counter := rfl
  permS := fun _ => (full_perm v).1
  permS2 := fun _ _ => (full_perm v).2

theorem keyState_inv : Inv keyState where
  canon := by decide
  key := by decide
  iv := by decide
  counter := rfl
  permS := fun h => absurd h (by decide)
  permS2 := fun h => absurd h (by decide)

/-- EncodedCommandDecodesToItself, at the largest operand. -/
theorem test_witness_encode : (Instr.genn 0xFFFFFF).wellFormed = true ∧ (Instr.keyb 0xFF).wellFormed = true := by decide

/-- DecodedWordEncodesToItself. -/
theorem test_witness_decode : decode 0x14FFFFFF = .ok (.initDrop 0xFFFFFF) := by decide

/-- StepRunsTheDecodedCommand, its four clauses; FaultEntryWritesTheCodeOnly and EachFaultIsRaisedExactlyWhenItsCauseHolds use
the third and the fourth. -/
theorem test_witness_step :
    (∃ s : State, s.port = .command 0x01000000 :: [] ∧ s.ecode ≠ .none) ∧
    (∃ s : State, s.port = .command 0x01000001 :: [] ∧ s.ecode ≠ .none ∧ (0x01000001 : Word) ≠ 0x01000000) ∧
    (∃ s : State, s.port = .command 0x24000000 :: [] ∧ s.ecode = .none ∧ wordLegal 0x24000000 = false) ∧
    (∃ s : State, s.port = .command 0x23FFFFFF :: [] ∧ s.ecode = .none ∧
      decode 0x23FFFFFF = .ok (.drop 0xFFFFFF)) :=
  ⟨⟨{ presenting 0x01000000 with ecode := .notKeyed }, by decide⟩,
   ⟨{ presenting 0x01000001 with ecode := .notKeyed }, by decide⟩,
   ⟨presenting 0x24000000, by decide⟩, ⟨presenting 0x23FFFFFF, by decide⟩⟩

/-- IdleAndResetSteps. -/
theorem test_witness_idle_reset : State.reset.port = [] ∧
    ({ State.reset with port := [.reset] } : State).port = .reset :: [] := ⟨rfl, rfl⟩

/-- KeybAppendsOneKeyByte and IvbAppendsOneIvByte, at the boundary of each clause. -/
theorem test_witness_append :
    (∃ s : State, s.klen.val = 255 ∧ s.klen.val < 256) ∧ (∃ s : State, s.klen.val = 256) ∧
    (∃ s : State, s.ivlen.val = 15 ∧ s.ivlen.val < 16) ∧ (∃ s : State, s.ivlen.val = 16) :=
  ⟨⟨{ State.reset with klen := 255 }, by decide⟩, ⟨{ State.reset with klen := 256 }, by decide⟩,
   ⟨{ State.reset with ivlen := 15 }, by decide⟩, ⟨{ State.reset with ivlen := 16 }, by decide⟩⟩

/-- InitOnEmptyKeyRaisesEmptyKey and SteppingUnkeyedRaisesNotKeyed; the unkeyed clauses of XORB, GENN and DROP. -/
theorem test_witness_raise : isInit .initIv = true ∧ isInit (.initRc4a 5) = true ∧ State.reset.klen.val = 0 ∧
    State.reset.ecode = .none ∧ isStepping (.genn 0) = true ∧ State.reset.keyed = false := by decide

/-- EachFaultIsRaisedExactlyWhenItsCauseHolds and FaultEntryWritesTheCodeOnly: each of the three faults. -/
theorem test_witness_faults :
    (∃ t, step (presenting 0x24000000) = .next t ∧ t.ecode = .illegalCmd) ∧
    (∃ t, step (presenting 0x15000000) = .next t ∧ t.ecode = .emptyKey) ∧
    (∃ t, step (presenting 0x20000000) = .next t ∧ t.ecode = .notKeyed) :=
  ⟨⟨_, rfl, by decide⟩, ⟨_, rfl, by decide⟩, ⟨_, rfl, by decide⟩⟩

/-- FirstFaultCodeIsKept. -/
theorem test_witness_first_fault : ∃ s t : State, exec .gen s = .next t ∧ s.ecode ≠ .none ∧ Instr.gen ≠ .zero :=
  ⟨{ State.reset with ecode := .emptyKey }, _, rfl, by decide⟩

/-- OnlyZeroAndResetLeaveAFault, by ZERO and by reset; a faulted block that is not left is in `test_faulted`. -/
theorem test_witness_leave_fault :
    (∃ s t : State, step s = .next t ∧ s.ecode ≠ .none ∧ t.ecode = .none ∧ s.port = [.command 0x01000000]) ∧
    (∃ s t : State, step s = .next t ∧ s.ecode ≠ .none ∧ t.ecode = .none ∧ s.port = [.reset]) :=
  ⟨⟨{ presenting 0x01000000 with ecode := .notKeyed }, _, rfl, by decide, by decide, rfl⟩,
   ⟨{ State.reset with ecode := .notKeyed, port := [.reset] }, _, rfl, by decide, by decide, rfl⟩⟩

/-- The four statements of one step; the RC4A one in both phases. -/
theorem test_witness_gen :
    ((full .rc4).keyed = true ∧ (full .rc4).var = .rc4 ∧ fullTable (full .rc4).S = true) ∧
    ((full .rc4drop).keyed = true ∧ (full .rc4drop).var = .rc4drop ∧ fullTable (full .rc4drop).S = true) ∧
    ((full .rc4a).keyed = true ∧ (full .rc4a).var = .rc4a ∧ fullTable (full .rc4a).S = true ∧
      fullTable (full .rc4a).S2 = true ∧ (full .rc4a).ph = .first) ∧
    (({ full .rc4a with ph := .second } : State).var = .rc4a ∧
      fullTable ({ full .rc4a with ph := .second } : State).S2 = true ∧
      ({ full .rc4a with ph := .second } : State).ph = .second) ∧
    ((full .vmpc).keyed = true ∧ (full .vmpc).var = .vmpc ∧ fullTable (full .vmpc).S = true) ∧
    ((full .rc4p).keyed = true ∧ (full .rc4p).var = .rc4p ∧ fullTable (full .rc4p).S = true) :=
  ⟨⟨rfl, rfl, (full_table _).1⟩, ⟨rfl, rfl, (full_table _).1⟩,
   ⟨rfl, rfl, (full_table _).1, (full_table _).2, rfl⟩, ⟨rfl, (full_table .rc4a).2, rfl⟩,
   ⟨rfl, rfl, (full_table _).1⟩, ⟨rfl, rfl, (full_table _).1⟩⟩

/-- The stepping commands on a usable instance, RC4+ against the baseline. -/
theorem test_witness_usable : usable (full .rc4a) = true ∧ usable (full .rc4p) = true ∧ (full .rc4p).var = .rc4p :=
  ⟨full_usable _, full_usable _, rfl⟩

/-- EncdecRoundTripOnMatchedState: two blocks with different keys, OUT and CNT, for RC4A and for RC4 with different `S2`. -/
theorem test_witness_matched :
    (∃ s s' : State, usable s = true ∧ s.var = .rc4a ∧ sameCipher s s' ∧ s'.KEY ≠ s.KEY ∧ s'.klen ≠ s.klen ∧
      s'.out ≠ s.out ∧ s'.cnt ≠ s.cnt) ∧
    (∃ s s' : State, usable s = true ∧ s.var = .rc4 ∧ sameCipher s s' ∧ s'.ph ≠ s.ph ∧ s'.S2 ≠ s.S2) := by
  refine ⟨⟨full .rc4a, { full .rc4a with klen := 1, KEY := [(0, 7)], out := [1], cnt := 2 }, full_usable _, rfl,
      ⟨rfl, rfl, rfl, rfl, rfl, fun _ => ⟨rfl, rfl, rfl⟩⟩, by decide, by decide, by decide, by decide⟩,
    ⟨full .rc4, { full .rc4 with ph := .second, S2 := [] }, full_usable _, rfl,
      ⟨rfl, rfl, rfl, rfl, rfl, fun h => absurd h (by decide)⟩, by decide, ?_⟩⟩
  intro h
  have h2 := (full_table .rc4).2
  rw [← h] at h2
  exact absurd h2 (by decide)

/-- SteppingCommandsWriteCipherStateOnly, and the second part of InitDropIsInitRc4ButForTheTag. -/
theorem test_witness_stepping : ∃ t, isStepping .gen = true ∧ (full .rc4).keyed = true ∧ (full .rc4).var = .rc4 ∧
    exec .gen (full .rc4) = .next t := by
  obtain ⟨k, t, h, -⟩ := stepCipher_usable (full_usable .rc4)
  exact ⟨_, rfl, rfl, rfl, exec_gen rfl h⟩

/-- SkipEquivalenceAndComposition: a loaded key, a usable instance, and counts at the edge of 24 bits. -/
theorem test_witness_skip : keyState.klen.val ≠ 0 ∧ keyLoaded keyState = true ∧ usable (full .vmpc) = true ∧
    (0xFFFFFE : Count).toNat + (1 : Count).toNat < 2 ^ 24 :=
  ⟨by decide, by decide, full_usable _, by decide⟩

/-- InitBuildsTheKeyScheduleTable and the INIT statements that ask for a loaded key. -/
theorem test_witness_key : ∃ key : Nat → Byte, keyState.klen.val ≠ 0 ∧
    ∀ n < keyState.klen.val, Memory.read n keyState.KEY = some (key n) :=
  ⟨fun n => if n = 0 then 107 else if n = 1 then 101 else 121, by decide, by decide⟩

/-- InitIvSkipsByTheIvFormula, with an empty and with a full IV buffer. -/
theorem test_witness_iv :
    (∃ iv : Nat → Byte, ∀ k < keyState.ivlen.val, Memory.read k keyState.IV = some (iv k)) ∧
    (∃ (s : State) (iv : Nat → Byte), s.klen.val ≠ 0 ∧ keyLoaded s = true ∧ s.ivlen.val = 16 ∧
      ∀ k < s.ivlen.val, Memory.read k s.IV = some (iv k)) :=
  ⟨⟨fun _ => 0, by decide⟩,
   ⟨{ keyState with ivlen := 16, IV := (List.range 16).map fun k => (k, 0xFF) }, fun _ => 0xFF, by decide, by decide,
    by decide, by decide⟩⟩

/-- InitLeavesBuffersAndOutput: an INIT that completes on a key. -/
theorem test_witness_init : ∃ t, isInit (.initVmpc 4) = true ∧ keyState.klen.val ≠ 0 ∧
    exec (.initVmpc 4) keyState = .next t := by
  obtain ⟨key, hk⟩ := keyLoaded_iff.1 (show keyLoaded keyState = true by decide)
  obtain ⟨_, _, w, -, -, -, -, -, -, h⟩ := exec_initOf_ok (v := .vmpc) (c := 4) (s := keyState) (by decide) hk
  exact ⟨_, rfl, by decide, h⟩

/-- InitDependsOnTheCyclicKeyAlone: the key 7 and the key 7, 7, on a fresh and on a keyed block. -/
theorem test_witness_cyclic :
    ∃ s s' : State, canonical s = true ∧ canonical s' = true ∧ s.klen.val ≠ 0 ∧ s'.klen.val ≠ 0 ∧
      keyLoaded s = true ∧ keyLoaded s' = true ∧ s.keyed ≠ s'.keyed ∧
      ∀ n < 256, Memory.read (n % s.klen.val) s.KEY = Memory.read (n % s'.klen.val) s'.KEY := by
  refine ⟨{ State.reset with klen := 1, KEY := [(0, 7)] }, { full .rc4 with klen := 2, KEY := [(0, 7), (1, 7)] },
    by decide, ?_, by decide, by decide, by decide, by decide, by decide, fun n _ => ?_⟩
  · exact canonical_setMemory (M := .KEY) (m := [(0, 7), (1, 7)]) (full_canonical .rc4) (by decide) (by decide)
  · show Memory.read (n % 1) [(0, 7)] = Memory.read (n % 2) [(0, 7), (1, 7)]
    rw [Nat.mod_one]
    rcases Nat.mod_two_eq_zero_or_one n with h | h <;> rw [h] <;> rfl

/-- Rc4aPairsKeepTheTablesEqual, for an even and an odd count. -/
theorem test_witness_rc4a : (full .rc4a).keyed = true ∧ (full .rc4a).var = .rc4a ∧ fullTable (full .rc4a).S = true ∧
    (full .rc4a).ph = .first ∧ (full .rc4a).S2 = (full .rc4a).S ∧ (full .rc4a).j2 = (full .rc4a).j ∧
    (1234 : Count).toNat % 2 = 0 ∧ (1 : Count).toNat % 2 = 1 :=
  ⟨rfl, rfl, (full_table _).1, rfl, rfl, rfl, by decide, by decide⟩

/-- ReinitialisedBlockDecryptsItsOwnOutput, and the statements over the invariant. -/
theorem test_witness_inv : Inv keyState ∧ keyState.klen.val ≠ 0 ∧ isInit .initIv = true ∧ Inv (full .rc4a) ∧
    (full .rc4a).keyed = true :=
  ⟨keyState_inv, by decide, rfl, full_inv _, rfl⟩

/-- EveryRunKeepsThePermutations: a run from reset that reaches KEYED = 1, by one KEYB and one INIT.RC4A. -/
theorem test_witness_run : ∃ t : State, Host.Core.run Sys2Proof.core 2
      { State.reset with port := present [.keyb 7, .initRc4a 0] } = .next t ∧ t.keyed = true ∧ t.var = .rc4a := by
  obtain ⟨_, _, w, -, -, -, -, -, hw, h⟩ := exec_initOf_ok (v := .rc4a) (c := 0) (key := fun _ => 7)
    (s := { State.reset with klen := 1, KEY := [(0, 7)] }) (by decide) (by decide)
  refine ⟨w.setCnt 0, ?_, (steps_keyed hw).trans rfl, (steps_var hw).trans rfl⟩
  have e1 : step { State.reset with port := present [.keyb 7, .initRc4a 0] } =
      .next { State.reset with klen := 1, KEY := [(0, 7)], port := present [.initRc4a 0] } := rfl
  have e2 : step { State.reset with klen := 1, KEY := [(0, 7)], port := present [.initRc4a 0] } =
      exec (initOf .rc4a 0) { State.reset with klen := 1, KEY := [(0, 7)] } := by
    have hd : decode (encode (.initRc4a 0)) = .ok (.initRc4a 0) := by decide
    show runCommand (encode (.initRc4a 0)) { State.reset with klen := 1, KEY := [(0, 7)] } = _
    rw [runCommand, if_neg (by decide), hd]; rfl
  rw [Laws.core_run_step e1, Laws.core_run_step (e2.trans h)]
  exact Host.Core.run.eq_1 _ _

/-- EveryStepKeepsTheInvariant: a step from a keyed state that meets it. -/
theorem test_witness_inv_step : ∃ s t : State, Inv s ∧ s.keyed = true ∧ s.port = [.command 0x08000000] ∧
    step s = .next t := by
  refine ⟨{ full .rc4a with port := [.command 0x08000000] }, _, ?_, rfl, rfl, rfl⟩
  have h := full_inv .rc4a
  exact ⟨h.canon, h.key, h.iv, h.counter, h.permS, h.permS2⟩

/-- The rules over all commands: OnlyInitAndZeroWriteKeyedAndVar, OnlyBufferCommandsWriteTheBuffers,
OutGrowsByWhatACommandEmits, NoCommandReadsOutOrTheHostsInputs. -/
theorem test_witness_rules :
    (∃ t, exec .kclr keyState = .next t ∧ isInit .kclr = false ∧ isStepping .kclr = false ∧ Instr.kclr ≠ .zero) ∧
    (∃ t, exec .zero keyState = .next t) ∧
    (∃ t, exec (.genn 2) State.reset = .next t ∧ State.reset.keyed = false) :=
  ⟨⟨_, rfl, rfl, rfl, by decide⟩, ⟨_, rfl⟩, ⟨_, rfl, rfl⟩⟩

/-- OnlyRc4aAndZeroWriteS2: an RC4A step of the SECOND phase that changes `S2`. -/
theorem test_witness_S2 : ∃ s t : State, exec .gen s = .next t ∧ t.S2 ≠ s.S2 :=
  ⟨{ keyedWith .rc4a [(88, 11)] [(1, 195), (195, 149)] with i := 1, ph := .second }, _, rfl, by decide⟩

/-- PresentedCommandsRunOneAfterAnother: KEY 7, 8. -/
theorem test_witness_present : ∃ s t : State, .zero ∉ pseudoKey [7, 8] ∧ s.ecode = .none ∧
    s.port = present (pseudoKey [7, 8]) ∧
    execAll (pseudoKey [7, 8]) { s with port := [] } = .next t ∧ t.ecode = .none ∧ t.klen = 2 :=
  ⟨{ State.reset with port := present (pseudoKey [7, 8]) }, _, by decide, rfl, rfl, rfl, by decide, by decide⟩

end Sys2Proof.Tests
end

section
/-! SUPPORT. What each command can do, as one relation: the equation of every command group, then `exec_eq_next`, from which
the statements about all commands are read off. -/

namespace Sys2Proof.Proofs

open Sys2Proof.Machine Sys2Proof.Safety

variable {i : Instr} {s t u : State}

/-! ### The stepping commands -/

/-- How many steps a stepping command runs (R151, R166, R167, R168). -/
def stepCount : Instr → Nat
  | .gen | .xorb _ => 1
  | .genn n | .drop n => n.toNat
  | _ => 0

/-- What a stepping command emits for the keystream bytes of its steps. -/
def emittedBytes : Instr → List Byte → List Byte
  | .gen, ks | .genn _, ks => ks
  | .xorb b, ks => ks.map fun k => b ^^^ k
  | _, _ => []

/-- CNT after a stepping command: GENN and DROP run it down to 0, the others do not write it (R32, R156). -/
def counterAfter : Instr → Count → Count
  | .genn _, _ | .drop _, _ => 0
  | _, c => c

theorem emittedBytes_length {ks : List Byte} (h : isStepping i = true) (hks : ks.length = stepCount i) :
    (emittedBytes i ks).length = emitted i := by
  cases i <;> simp_all [isStepping, emittedBytes, stepCount, emitted]

theorem steps_one_eq_ok {ks : List Byte} : steps 1 s = .ok (ks, u) ↔ ∃ k, stepCipher s = .ok (k, u) ∧ ks = [k] := by
  constructor
  · intro h
    obtain ⟨k, v, cs, hk, hv, rfl⟩ := steps_succ_eq_ok.1 h
    obtain ⟨rfl, rfl⟩ := Prod.mk.inj (Except.ok.inj hv)
    exact ⟨k, hk, rfl⟩
  · rintro ⟨k, hk, rfl⟩
    exact steps_succ_eq_ok.2 ⟨k, u, [], hk, rfl, rfl⟩

/-- Everything a stepping command does on a keyed block: it completes exactly when its steps do. -/
theorem exec_stepping_eq_next (h : isStepping i = true) (hk : s.keyed = true) : exec i s = .next t ↔
    ∃ ks u, steps (stepCount i) s = .ok (ks, u) ∧
      t = (u.setCnt (counterAfter i s.cnt)).setOut (s.out ++ emittedBytes i ks) := by
  constructor
  · intro hx
    cases i <;> simp [isStepping] at h
    case gen =>
      obtain ⟨⟨k, u⟩, hu, ht⟩ := bind_eq_ok.1 (finish_eq_next.1 ((whenKeyed_keyed hk).symm.trans hx))
      refine ⟨[k], u, steps_one_eq_ok.2 ⟨k, hu, rfl⟩, ?_⟩
      rw [← Except.ok.inj ht, ← stepCipher_out hu, ← stepCipher_cnt hu]; rfl
    case xorb b =>
      obtain ⟨⟨k, u⟩, hu, ht⟩ := bind_eq_ok.1 (finish_eq_next.1 ((whenKeyed_keyed hk).symm.trans hx))
      refine ⟨[k], u, steps_one_eq_ok.2 ⟨k, hu, rfl⟩, ?_⟩
      rw [← Except.ok.inj ht, ← stepCipher_out hu, ← stepCipher_cnt hu]; rfl
    case genn n => exact emitSteps_eq_ok.1 (finish_eq_next.1 ((whenKeyed_keyed hk).symm.trans hx))
    case drop n =>
      obtain ⟨ks, u, hu, rfl⟩ := discardSteps_eq_ok.1 (finish_eq_next.1 ((whenKeyed_keyed hk).symm.trans hx))
      refine ⟨ks, u, hu, ?_⟩
      simp only [emittedBytes, List.append_nil, ← steps_out hu]; rfl
  · rintro ⟨ks, u, hu, rfl⟩
    cases i <;> simp [isStepping] at h
    case gen =>
      obtain ⟨k, hk', rfl⟩ := steps_one_eq_ok.1 hu
      rw [exec_gen hk hk', ← stepCipher_cnt hk']; rfl
    case xorb b =>
      obtain ⟨k, hk', rfl⟩ := steps_one_eq_ok.1 hu
      rw [exec_xorb hk hk', ← stepCipher_cnt hk']; rfl
    case genn n => exact exec_genn hk hu
    case drop n =>
      rw [exec_drop hk hu]
      simp only [emittedBytes, List.append_nil, ← steps_out hu]; rfl

/-! ### All commands -/

/-- What a command can do, one constructor for each way it can end. -/
inductive Effect (s : State) : Instr → State → Prop
  /-- NOP (R180). -/
  | nop : Effect s .nop s
  /-- ZERO (R181). -/
  | zero : Effect s .zero (erase s)
  /-- KCLR (R100). -/
  | kclr : Effect s .kclr (s.setKlen 0)
  /-- KEYB on a buffer that is not full (R101). -/
  | keyb (b : Byte) (h : s.klen.val < 256) :
      Effect s (.keyb b) ((memWrite .KEY s.klen.val b s).setKlen ⟨s.klen.val + 1, Nat.succ_lt_succ h⟩)
  /-- KEYB on a full buffer (R101). -/
  | keybFull (b : Byte) (h : ¬ s.klen.val < 256) : Effect s (.keyb b) s
  /-- IVCLR (R152). -/
  | ivclr : Effect s .ivclr (s.setIvlen 0)
  /-- IVB on a buffer that is not full (R153). -/
  | ivb (b : Byte) (h : s.ivlen.val < 16) :
      Effect s (.ivb b) ((memWrite .IV s.ivlen.val b s).setIvlen ⟨s.ivlen.val + 1, Nat.succ_lt_succ h⟩)
  /-- IVB on a full buffer (R153). -/
  | ivbFull (b : Byte) (h : ¬ s.ivlen.val < 16) : Effect s (.ivb b) s
  /-- An INIT command on an empty key (R191). -/
  | emptyKey (i : Instr) (hi : isInit i = true) (hk : s.klen.val = 0) : Effect s i (raise .emptyKey s)
  /-- An INIT command with a count on a key (R103). -/
  | init (v : Variant) (c : Count) (t : State) (hk : s.klen.val ≠ 0) (h : initCommon v c s = .next t) :
      Effect s (initOf v c) t
  /-- INIT.IV on a key (R155). -/
  | initIv (n : Nat) (t : State) (hk : s.klen.val ≠ 0) (hn : ivSkip s = .ok n)
      (h : initCommon .rc4 (BitVec.ofNat 24 n) s = .next t) : Effect s .initIv t
  /-- A stepping command on a block that is not keyed (R192). -/
  | notKeyed (i : Instr) (hi : isStepping i = true) (hk : s.keyed = false) : Effect s i (raise .notKeyed s)
  /-- A stepping command on a keyed block (R165). -/
  | stepping (i : Instr) (ks : List Byte) (u : State) (hi : isStepping i = true) (hk : s.keyed = true)
      (h : steps (stepCount i) s = .ok (ks, u)) :
      Effect s i ((u.setCnt (counterAfter i s.cnt)).setOut (s.out ++ emittedBytes i ks))

theorem effect_of_exec (h : exec i s = .next t) : Effect s i t := by
  by_cases hi : isInit i = true
  · by_cases hk : s.klen.val = 0
    · cases (exec_init_empty hi hk).symm.trans h
      exact .emptyKey i hi hk
    · rcases isInit_cases hi with rfl | ⟨v, c, rfl⟩
      · obtain ⟨n, hn, h⟩ := (exec_initIv_eq_next hk).1 h
        exact .initIv n t hk hn h
      · exact .init v c t hk (exec_initOf v c s ▸ h)
  by_cases hs : isStepping i = true
  · cases hk : s.keyed with
    | false =>
      cases (exec_stepping_unkeyed hs hk).symm.trans h
      exact .notKeyed i hs hk
    | true =>
      obtain ⟨ks, u, hu, rfl⟩ := (exec_stepping_eq_next hs hk).1 h
      exact .stepping i ks u hs hk hu
  cases i <;> simp [isInit, isStepping] at hi hs
  case nop => cases h; exact .nop
  case zero => cases h; exact .zero
  case kclr => cases h; exact .kclr
  case ivclr => cases h; exact .ivclr
  case keyb b =>
    by_cases hb : s.klen.val < 256
    · cases (dif_pos hb).symm.trans h; exact .keyb b hb
    · cases (dif_neg hb).symm.trans h; exact .keybFull b hb
  case ivb b =>
    by_cases hb : s.ivlen.val < 16
    · cases (dif_pos hb).symm.trans h; exact .ivb b hb
    · cases (dif_neg hb).symm.trans h; exact .ivbFull b hb

theorem exec_of_effect (h : Effect s i t) : exec i s = .next t := by
  cases h with
  | nop | zero | kclr | ivclr => rfl
  | keyb b h => exact dif_pos h
  | ivb b h => exact dif_pos h
  | keybFull b h => exact dif_neg h
  | ivbFull b h => exact dif_neg h
  | emptyKey _ hi hk => exact exec_init_empty hi hk
  | init v c _ hk h => rw [exec_initOf, h]
  | initIv n _ hk hn h => exact (exec_initIv_eq_next hk).2 ⟨n, hn, h⟩
  | notKeyed _ hi hk => exact exec_stepping_unkeyed hi hk
  | stepping _ ks u hi hk h => exact (exec_stepping_eq_next hi hk).2 ⟨ks, u, h, rfl⟩

/-- A command answers a next state exactly in one of these ways. -/
theorem exec_eq_next : exec i s = .next t ↔ Effect s i t := ⟨effect_of_exec, exec_of_effect⟩

/-! ### Frames -/

/-- The registers, the KEY and IV buffers and the observation that steps leave unchanged (R165). -/
theorem steps_write {n : Nat} {ks : List Byte} (h : steps n s = .ok (ks, u)) :
    u = { s with i := u.i, j := u.j, j2 := u.j2, ph := u.ph, S := u.S, S2 := u.S2 } := by
  conv_lhs => rw [← steps_frame h, carry, steps_var h]

theorem isInit_initOf (v : Variant) (c : Count) : isInit (initOf v c) = true := by cases v <;> rfl

theorem emitted_of_isInit (h : isInit i = true) : emitted i = 0 := by
  cases i <;> simp_all [isInit, emitted]

end Sys2Proof.Proofs
end

section
/-! SUPPORT. Every state that meets the invariant answers a next state that meets it: command by command, then for one input
of the host, then for every run. -/

namespace Sys2Proof.Proofs

open Sys2Proof.Machine Sys2Proof.Safety

variable {i : Instr} {s t u : State}

/-! ### One register or buffer at a time -/

theorem inv_reset : Inv State.reset where
  canon := canonical_reset
  key := rfl
  iv := rfl
  counter := rfl
  permS := fun h => Bool.noConfusion h
  permS2 := fun h => Bool.noConfusion h

theorem inv_setPort {p : List HostInput} (h : Inv s) : Inv (s.setPort p) :=
  ⟨h.canon, h.key, h.iv, h.counter, h.permS, h.permS2⟩

theorem inv_setOut {o : List Byte} (h : Inv s) : Inv (s.setOut o) :=
  ⟨h.canon, h.key, h.iv, h.counter, h.permS, h.permS2⟩

theorem inv_raise {c : ECode} (h : Inv s) : Inv (raise c s) := by
  rw [raise_frame]
  exact ⟨h.canon, h.key, h.iv, h.counter, h.permS, h.permS2⟩

theorem inv_erase : Inv (erase s) where
  canon := canonical_erase
  key := rfl
  iv := rfl
  counter := rfl
  permS := fun h => Bool.noConfusion h
  permS2 := fun h => Bool.noConfusion h

theorem inv_setKlen_zero (h : Inv s) : Inv (s.setKlen 0) :=
  ⟨h.canon, rfl, h.iv, h.counter, h.permS, h.permS2⟩

theorem inv_setIvlen_zero (h : Inv s) : Inv (s.setIvlen 0) :=
  ⟨h.canon, h.key, rfl, h.counter, h.permS, h.permS2⟩

/-- A buffer written up to `n`, and then at `n`, is written up to `n + 1` (R35, R36). -/
theorem written_write_succ {m : Memory} {n : Nat} {b : Byte}
    (h : ((List.range n).all fun a => (Memory.read a m).isSome) = true) :
    ((List.range (n + 1)).all fun a => (Memory.read a (Memory.write n b m)).isSome) = true := by
  simp only [List.all_eq_true, List.mem_range] at h ⊢
  intro a ha
  rw [Memory.read_write]
  split
  · rfl
  · exact h a (by omega)

theorem inv_appendKey {b : Byte} (h : Inv s) (hb : s.klen.val < 256) :
    Inv ((memWrite .KEY s.klen.val b s).setKlen ⟨s.klen.val + 1, Nat.succ_lt_succ hb⟩) :=
  ⟨canonical_memWrite (M := .KEY) hb h.canon, written_write_succ h.key, h.iv, h.counter, h.permS, h.permS2⟩

theorem inv_appendIv {b : Byte} (h : Inv s) (hb : s.ivlen.val < 16) :
    Inv ((memWrite .IV s.ivlen.val b s).setIvlen ⟨s.ivlen.val + 1, Nat.succ_lt_succ hb⟩) :=
  ⟨canonical_memWrite (M := .IV) hb h.canon, h.key, written_write_succ h.iv, h.counter, h.permS, h.permS2⟩

/-! ### The stepping and the INIT commands -/

theorem usable_of_inv (h : Inv s) (hk : s.keyed = true) : usable s = true :=
  usable_iff.2 ⟨hk, fullTable_of_isPermutation (h.permS hk), fun hv => fullTable_of_isPermutation (h.permS2 hk hv)⟩

/-- Steps of the cipher keep the invariant: they only exchange entries of the two permutations (R38, R165). -/
theorem inv_steps {n : Nat} {ks : List Byte} (h : Inv s) (hu : steps n s = .ok (ks, u)) : Inv u where
  canon := steps_canonical hu h.canon
  key := by rw [keyLoaded, steps_write hu]; exact h.key
  iv := by rw [ivLoaded, steps_write hu]; exact h.iv
  counter := (steps_cnt hu).trans h.counter
  permS := fun hk => (steps_isPermutation hu).1 (h.permS ((steps_keyed hu).symm.trans hk))
  permS2 := fun hk hv => (steps_isPermutation hu).2
    (h.permS2 ((steps_keyed hu).symm.trans hk) ((steps_var hu).symm.trans hv))

theorem counterAfter_zero (i : Instr) : counterAfter i 0 = 0 := by cases i <;> rfl

theorem exec_stepping_inv (hi : isStepping i = true) (hk : s.keyed = true) (h : Inv s) :
    ∃ t, exec i s = .next t ∧ Inv t := by
  obtain ⟨ks, u, hu, -⟩ := steps_usable (stepCount i) (usable_of_inv h hk)
  refine ⟨_, (exec_stepping_eq_next hi hk).2 ⟨ks, u, hu, rfl⟩, inv_setOut ?_⟩
  have hc : counterAfter i s.cnt = u.cnt := by rw [steps_cnt hu, h.counter, counterAfter_zero]
  rw [hc]
  exact inv_steps h hu

/-- The schedules of an INIT command make permutations (R102, R38), and the skip keeps them. -/
theorem exec_initOf_inv {v : Variant} {c : Count} (hk : s.klen.val ≠ 0) (h : Inv s) :
    ∃ t, exec (initOf v c) s = .next t ∧ Inv t := by
  obtain ⟨key, hkey⟩ := keyLoaded_iff.1 h.key
  obtain ⟨u, ks, w, hu, -, hS, hS2, hc, hw, hx⟩ := exec_initOf_ok (v := v) (c := c) hk hkey
  obtain ⟨hf, -⟩ := scheduleKeys_frame hu
  have hstart : Inv (startInstance v u) :=
    { canon := hc h.canon
      key := by rw [hf]; exact h.key
      iv := by rw [hf]; exact h.iv
      counter := by rw [hf]; exact h.counter
      permS := fun _ => hS
      permS2 := fun _ hv => (hS2 hv).2 }
  have hinv := inv_steps hstart hw
  refine ⟨w.setCnt 0, hx, ?_⟩
  rw [← hinv.counter, State.setCnt_self]
  exact hinv

/-- The skip of INIT.IV is computed from a loaded IV (R154). -/
theorem ivSkip_of_ivLoaded (h : ivLoaded s = true) : ∃ n, ivSkip s = .ok n := by
  simp only [ivLoaded, List.all_eq_true, Option.isSome_iff_exists] at h
  have hsum := ivSum_ok (acc := 0) (ks := List.range s.ivlen.val) (s := s)
    (iv := fun k => (Memory.read k s.IV).getD 0) fun k hk => by
      obtain ⟨v, hv⟩ := h k hk; rw [hv]; rfl
  unfold ivSkip
  split
  · exact ⟨0, rfl⟩
  · rw [hsum]; exact ⟨_, rfl⟩

theorem exec_init_inv (hi : isInit i = true) (hk : s.klen.val ≠ 0) (h : Inv s) :
    ∃ t, exec i s = .next t ∧ Inv t := by
  rcases isInit_cases hi with rfl | ⟨v, c, rfl⟩
  · obtain ⟨n, hn⟩ := ivSkip_of_ivLoaded h.iv
    obtain ⟨t, ht, hinv⟩ := exec_initOf_inv (v := .rc4) (c := BitVec.ofNat 24 n) hk h
    exact ⟨t, (exec_initIv_eq_next hk).2 ⟨n, hn, ht⟩, hinv⟩
  · exact exec_initOf_inv hk h

/-! ### Every command, every input, every run -/

theorem exec_inv (i : Instr) (h : Inv s) : ∃ t, exec i s = .next t ∧ Inv t := by
  by_cases hi : isInit i = true
  · by_cases hk : s.klen.val = 0
    · exact ⟨_, exec_init_empty hi hk, inv_raise h⟩
    · exact exec_init_inv hi hk h
  by_cases hs : isStepping i = true
  · cases hk : s.keyed with
    | false => exact ⟨_, exec_stepping_unkeyed hs hk, inv_raise h⟩
    | true => exact exec_stepping_inv hs hk h
  cases i <;> simp [isInit, isStepping] at hi hs
  case nop => exact ⟨s, rfl, h⟩
  case zero => exact ⟨_, rfl, inv_erase⟩
  case kclr => exact ⟨_, rfl, inv_setKlen_zero h⟩
  case ivclr => exact ⟨_, rfl, inv_setIvlen_zero h⟩
  case keyb b =>
    by_cases hb : s.klen.val < 256
    · exact ⟨_, dif_pos hb, inv_appendKey h hb⟩
    · exact ⟨s, dif_neg hb, h⟩
  case ivb b =>
    by_cases hb : s.ivlen.val < 16
    · exact ⟨_, dif_pos hb, inv_appendIv h hb⟩
    · exact ⟨s, dif_neg hb, h⟩

/-- The three stages of a command word (R77): it is ignored, it raises ILLEGAL_CMD, or it runs a command. -/
theorem runCommand_cases (cw : Word) (s : State) :
    (s.ecode ≠ .none ∧ cw ≠ zeroWord ∧ runCommand cw s = .next s) ∨
    (s.ecode = .none ∧ (∃ r, decode cw = .error r) ∧ runCommand cw s = .next (raise .illegalCmd s)) ∨
    ∃ i, (s.ecode ≠ .none ∧ cw = zeroWord ∧ i = .zero ∨ s.ecode = .none ∧ decode cw = .ok i) ∧
      runCommand cw s = exec i s := by
  unfold runCommand
  by_cases he : s.ecode = .none
  · cases hd : decode cw with
    | error r => exact .inr (.inl ⟨he, ⟨r, rfl⟩, by simp [he]⟩)
    | ok i => exact .inr (.inr ⟨i, .inr ⟨he, rfl⟩, by simp [he]⟩)
  · by_cases hz : cw = zeroWord
    · exact .inr (.inr ⟨.zero, .inl ⟨he, hz, rfl⟩, by simp [he, hz]⟩)
    · exact .inl ⟨he, hz, by simp [he, hz]⟩

theorem runCommand_inv (cw : Word) (h : Inv s) : ∃ t, runCommand cw s = .next t ∧ Inv t := by
  rcases runCommand_cases cw s with ⟨-, -, hr⟩ | ⟨-, -, hr⟩ | ⟨i, -, hr⟩ <;> rw [hr]
  · exact ⟨s, rfl, h⟩
  · exact ⟨_, rfl, inv_raise h⟩
  · exact exec_inv i h

theorem step_inv (h : Inv s) : ∃ t, step s = .next t ∧ Inv t := by
  unfold step serve
  split
  · exact ⟨s, rfl, h⟩
  · exact runCommand_inv _ (inv_setPort h)
  · exact ⟨_, rfl, inv_setPort inv_reset⟩

theorem run_inv (n : Nat) (h : Inv s) : ∃ t, Host.Core.run Sys2Proof.core n s = .next t ∧ Inv t := by
  induction n generalizing s with
  | zero => exact ⟨s, rfl, h⟩
  | succ n ih =>
    obtain ⟨u, hu, hinv⟩ := step_inv h
    rw [Laws.core_run_step hu]
    exact ih hinv

/-! ### The obligations -/

/-- Settles O46: the memories are empty and KEYED is 0. -/
theorem resetMeetsTheInvariant : Obligations.ResetMeetsTheInvariant := inv_reset

/-- Settles O47, from the step lemma `step_inv`: a step answers one state only. -/
theorem everyStepKeepsTheInvariant : Obligations.EveryStepKeepsTheInvariant := by
  intro s t h hst
  obtain ⟨u, hu, hinv⟩ := step_inv h
  cases hu.symm.trans hst
  exact hinv

/-- Settles O48, the progress half of `step_inv`. -/
theorem invariantStatesNeverStop : Obligations.InvariantStatesNeverStop := by
  intro s h
  obtain ⟨t, ht, -⟩ := step_inv h
  exact ⟨t, ht⟩

/-- Settles O49, by induction on the number of steps (`run_inv`) from the invariant of the reset state. -/
theorem everyRunKeepsThePermutations : Obligations.EveryRunKeepsThePermutations := by
  intro inputs n
  obtain ⟨t, ht, hinv⟩ := run_inv n (inv_setPort (p := inputs) inv_reset)
  exact ⟨t, ht, fun hk => ⟨hinv.permS hk, hinv.permS2 hk⟩⟩

end Sys2Proof.Proofs
end

section
/-! SUPPORT. Statements about all commands (10_state.md), each read off the relation `Effect` of what a command can do. -/

namespace Sys2Proof.Proofs

open Sys2Proof.Machine Sys2Proof.Safety

variable {i : Instr} {s t u : State}

/-- Settles O20: only ZERO clears the code, and `raise` keeps one that is recorded. -/
theorem firstFaultCodeIsKept : Obligations.FirstFaultCodeIsKept := by
  intro i s t hx he hz
  cases exec_eq_next.1 hx with
  | zero => exact absurd rfl hz
  | nop | kclr | keyb | keybFull | ivclr | ivb | ivbFull => rfl
  | emptyKey | notKeyed => rw [raise_of_faulted he]
  | init v c _ hk h => exact (congrArg State.ecode (initCommon_frame hk h).1 :)
  | initIv n _ hk _ h => exact (congrArg State.ecode (initCommon_frame hk h).1 :)
  | stepping _ _ _ _ _ h => exact (congrArg State.ecode (steps_write h) :)

/-- INIT completes with KEYED 1 (R103). -/
theorem keyed_of_initCommon {v : Variant} {c : Count} (hk : s.klen.val ≠ 0) (h : initCommon v c s = .next t) :
    t.keyed = true := congrArg State.keyed (initCommon_frame hk h).1

/-- No INIT on a key and not ZERO: neither KEYED nor VAR is written. -/
theorem keyed_var_of_effect (h : Effect s i t) (hi : isInit i = false ∨ s.klen.val = 0) (hz : i ≠ .zero) :
    t.keyed = s.keyed ∧ t.var = s.var := by
  cases h with
  | zero => exact absurd rfl hz
  | nop | kclr | keyb | keybFull | ivclr | ivb | ivbFull => exact ⟨rfl, rfl⟩
  | emptyKey | notKeyed => rw [raise_frame]; exact ⟨rfl, rfl⟩
  | init v c _ hk => exact absurd (isInit_initOf v c) (by simp [hi.resolve_right hk])
  | initIv _ _ hk => exact absurd (hi.resolve_right hk) (by simp [isInit])
  | stepping _ _ _ _ _ h => exact ⟨(steps_keyed h :), (steps_var h :)⟩

/-- Settles O41: INIT by the frame of `INIT_COMMON`, every other command by `keyed_var_of_effect`. -/
theorem onlyInitAndZeroWriteKeyedAndVar : Obligations.OnlyInitAndZeroWriteKeyedAndVar := by
  refine ⟨fun i s t hx => ⟨fun hi hk => ?_, ?_, keyed_var_of_effect (exec_eq_next.1 hx)⟩, fun s => ⟨rfl, rfl⟩⟩
  · rcases isInit_cases hi with rfl | ⟨v, c, rfl⟩
    · obtain ⟨n, -, h⟩ := (exec_initIv_eq_next hk).1 hx
      exact keyed_of_initCommon hk h
    · exact keyed_of_initCommon hk (exec_initOf v c s ▸ hx)
  · rintro rfl
    cases hx
    exact ⟨rfl, rfl⟩

/-- Settles O42: the INIT and the stepping commands write cipher state only, each buffer command its own buffer. -/
theorem onlyBufferCommandsWriteTheBuffers : Obligations.OnlyBufferCommandsWriteTheBuffers := by
  intro i s t hx hz
  cases exec_eq_next.1 hx with
  | zero => exact absurd rfl hz
  | nop | kclr | keybFull | ivclr | ivbFull => simp
  | keyb b | ivb b => simp [memWrite]
  | emptyKey | notKeyed => rw [raise_frame]; simp
  | init v c _ hk h => rw [(initCommon_frame hk h).1]; simp [isInit_initOf]
  | initIv n _ hk _ h => rw [(initCommon_frame hk h).1]; simp [isInit]
  | stepping _ ks u hi _ h => rw [steps_write h]; simp [hi]

/-! ### OUT and the host's inputs -/

theorem raise_withOuter {c : ECode} {o : List Byte} {p : List HostInput} :
    raise c (withOuter o p s) = withOuter o p (raise c s) := by
  unfold raise
  split <;> simp_all [withOuter, State.setEcode]

theorem ivSkip_withOuter {o : List Byte} {p : List HostInput} : ivSkip (withOuter o p s) = ivSkip s := by
  simp only [ivSkip, ivSum_withOuter]; rfl

/-- What a command appends to OUT is fixed by the rest of the state. -/
def Appends (i : Instr) (s t : State) (bs : List Byte) : Prop :=
  bs.length = (if s.keyed then emitted i else 0) ∧ t.out = s.out ++ bs ∧ t.port = s.port ∧
    ∀ o p, Effect (withOuter o p s) i (withOuter (o ++ bs) p t)

theorem appends_nil (hn : (if s.keyed then emitted i else 0) = 0) (ho : t.out = s.out) (hp : t.port = s.port)
    (he : ∀ o p, Effect (withOuter o p s) i (withOuter o p t)) : Appends i s t [] := by
  refine ⟨hn.symm, by rw [ho, List.append_nil], hp, fun o p => ?_⟩
  rw [List.append_nil]
  exact he o p

theorem appends_raise {c : ECode} (hn : (if s.keyed then emitted i else 0) = 0)
    (he : ∀ o p, Effect (withOuter o p s) i (raise c (withOuter o p s))) : Appends i s (raise c s) [] := by
  refine appends_nil hn (congrArg State.out raise_frame :) (congrArg State.port raise_frame :) fun o p => ?_
  rw [← raise_withOuter]
  exact he o p

/-- Every command appends some bytes to OUT, as many as it emits on a keyed block, and reads neither OUT nor the host's
inputs (R37, R40). -/
theorem exists_appends (h : Effect s i t) : ∃ bs, Appends i s t bs := by
  have silent : emitted i = 0 → (if s.keyed then emitted i else 0) = 0 := fun h => by simp [h]
  cases h with
  | nop => exact ⟨[], appends_nil (silent rfl) rfl rfl fun _ _ => .nop⟩
  | zero => exact ⟨[], appends_nil (silent rfl) rfl rfl fun _ _ => .zero⟩
  | kclr => exact ⟨[], appends_nil (silent rfl) rfl rfl fun _ _ => .kclr⟩
  | keyb b h => exact ⟨[], appends_nil (silent rfl) rfl rfl fun o p => .keyb (s := withOuter o p s) b h⟩
  | keybFull b h => exact ⟨[], appends_nil (silent rfl) rfl rfl fun _ _ => .keybFull b h⟩
  | ivclr => exact ⟨[], appends_nil (silent rfl) rfl rfl fun _ _ => .ivclr⟩
  | ivb b h => exact ⟨[], appends_nil (silent rfl) rfl rfl fun o p => .ivb (s := withOuter o p s) b h⟩
  | ivbFull b h => exact ⟨[], appends_nil (silent rfl) rfl rfl fun _ _ => .ivbFull b h⟩
  | emptyKey _ hi hk => exact ⟨[], appends_raise (silent (emitted_of_isInit hi)) fun _ _ => .emptyKey i hi hk⟩
  | notKeyed _ hi hk => exact ⟨[], appends_raise (by simp [hk]) fun _ _ => .notKeyed i hi hk⟩
  | init v c _ hk h =>
    obtain ⟨hf, -⟩ := initCommon_frame hk h
    exact ⟨[], appends_nil (silent (emitted_of_isInit (isInit_initOf v c))) (congrArg State.out hf :)
      (congrArg State.port hf :) fun o p => .init v c _ hk (initCommon_withOuter o p hk h)⟩
  | initIv n _ hk hn h =>
    obtain ⟨hf, -⟩ := initCommon_frame hk h
    exact ⟨[], appends_nil (silent rfl) (congrArg State.out hf :) (congrArg State.port hf :)
      fun o p => .initIv n _ hk (ivSkip_withOuter.trans hn) (initCommon_withOuter o p hk h)⟩
  | stepping _ ks u hi hk h =>
    refine ⟨emittedBytes i ks, ?_, rfl, (congrArg State.port (steps_write h) :), fun o p => ?_⟩
    · rw [if_pos hk, emittedBytes_length hi (steps_length h)]
    · exact .stepping i ks (withOuter o p u) hi hk (steps_withOuter o p h)

/-- Settles O43: the bytes of `exists_appends` are as many as the command emits. -/
theorem outGrowsByWhatACommandEmits : Obligations.OutGrowsByWhatACommandEmits := by
  intro i s t hx
  obtain ⟨bs, hl, ho, -⟩ := exists_appends (exec_eq_next.1 hx)
  exact ⟨bs, ho, hl⟩

/-- Settles O44: what `exists_appends` says of every other OUT and other inputs, back through `exec_eq_next`. -/
theorem noCommandReadsOutOrTheHostsInputs : Obligations.NoCommandReadsOutOrTheHostsInputs := by
  intro i s t o p hx
  obtain ⟨bs, -, ho, hp, he⟩ := exists_appends (exec_eq_next.1 hx)
  exact ⟨bs, ho, hp, exec_eq_next.2 (he o p)⟩

/-- Settles O45: the schedules write `S2` for RC4A only (`initCommon_frame`), the steps too (`steps_notRc4a`). -/
theorem onlyRc4aAndZeroWriteS2 : Obligations.OnlyRc4aAndZeroWriteS2 := by
  intro i s t hx hne
  cases exec_eq_next.1 hx with
  | zero => exact .inl rfl
  | nop | kclr | keyb | keybFull | ivclr | ivb | ivbFull => exact absurd rfl hne
  | emptyKey | notKeyed => exact absurd (congrArg State.S2 raise_frame) hne
  | init v c _ hk h =>
    by_cases hv : v = .rc4a
    · subst hv; exact .inr (.inl ⟨c, rfl⟩)
    · exact absurd ((initCommon_frame hk h).2 hv).1 hne
  | initIv n _ hk _ h => exact absurd ((initCommon_frame hk h).2 (by decide)).1 hne
  | stepping _ ks u hi hk h =>
    by_cases hv : s.var = .rc4a
    · exact .inr (.inr ⟨hi, hv, hk⟩)
    · exact absurd (steps_notRc4a hv h).2.2 hne

/-! ### The state after reset and STATUS -/

/-- Settles O8: the reset state is a literal, and its four memories list no entry. -/
theorem resetLeavesTheResetState : Obligations.ResetLeavesTheResetState :=
  ⟨rfl, rfl, rfl, rfl, rfl, rfl, rfl, rfl, rfl, rfl, rfl, rfl, fun M _ => by cases M <;> rfl⟩

/-- Settles O9: STATUS is the three fields one after another, so each is read back at its place. -/
theorem statusShowsFaultVariantKeyed : Obligations.StatusShowsFaultVariantKeyed := by
  refine ⟨fun s => ⟨?_, ?_, BitVec.extractLsb'_append_eq_right⟩, rfl, rfl⟩
  · exact (BitVec.extractLsb'_append_eq_of_le (by decide)).trans BitVec.extractLsb'_append_eq_left
  · exact (BitVec.extractLsb'_append_eq_of_le (by decide)).trans BitVec.extractLsb'_append_eq_right

end Sys2Proof.Proofs
end

section
/-! SUPPORT. The command map of 30_encoding.md read in both directions (R70 to R76): the decoder and the encoder undo each
other, and the rows of the opcode map hold exactly the encoder's words. -/

namespace Sys2Proof.Proofs

open Sys2Proof.Laws

variable {cw : Word} {i k : Instr} {op : Byte}

/-! ### The three formats -/

theorem readN_wordN : readN k (wordN op) = .ok k := if_pos (fields_wordN op).2

theorem readB_wordB {f : Byte → Instr} {b : Byte} : readB f (wordB op b) = .ok (f b) := by
  obtain ⟨-, hm, hb⟩ := fields_wordB op b
  rw [readB, if_pos hm, hb]

theorem readC_wordC {f : Count → Instr} {c : Count} : readC f (wordC op c) = .ok (f c) := by
  rw [readC, (fields_wordC op c).2]

/-- A format N word that is read is its opcode and nothing else (R71). -/
theorem encode_of_readN (h : readN k cw = .ok i) (hk : encode k = wordN op) (hop : (opField cw).toNat = op.toNat) :
    encode i = cw := by
  obtain rfl := BitVec.eq_of_toNat_eq hop
  unfold readN at h
  split at h
  case isTrue hz =>
    cases h
    rw [hk, wordN_eq_wordC, ← hz, ← word_eq_wordC]
  case isFalse => cases h

/-- A format B word that is read is its opcode and its byte (R72). -/
theorem encode_of_readB {f : Byte → Instr} (h : readB f cw = .ok i) (hf : ∀ b, encode (f b) = wordB op b)
    (hop : (opField cw).toNat = op.toNat) : encode i = cw := by
  obtain rfl := BitVec.eq_of_toNat_eq hop
  unfold readB at h
  split at h
  case isTrue hz =>
    cases h
    rw [hf, ← word_eq_wordB hz]
  case isFalse => cases h

/-- A format C word is its opcode and its count (R73). -/
theorem encode_of_readC {f : Count → Instr} (h : readC f cw = .ok i) (hf : ∀ c, encode (f c) = wordC op c)
    (hop : (opField cw).toNat = op.toNat) : encode i = cw := by
  obtain rfl := BitVec.eq_of_toNat_eq hop
  cases h
  rw [hf, ← word_eq_wordC]

/-! ### Decoder and encoder -/

/-- The opcode of each command (R75). -/
def opcode : Instr → Byte
  | .nop => 0x00
  | .zero => 0x01
  | .kclr => 0x08
  | .keyb _ => 0x09
  | .ivclr => 0x0A
  | .ivb _ => 0x0B
  | .initRc4 _ => 0x10
  | .initRc4a _ => 0x11
  | .initVmpc _ => 0x12
  | .initRc4p _ => 0x13
  | .initDrop _ => 0x14
  | .initIv => 0x15
  | .gen => 0x20
  | .xorb _ => 0x21
  | .genn _ => 0x22
  | .drop _ => 0x23

/-- The encoder writes the opcode where the decoder looks it up (R70). -/
theorem opField_encode (i : Instr) : opField (encode i) = opcode i := by
  cases i with
  | nop | zero | kclr | ivclr | initIv | gen => exact (fields_wordN _).1
  | keyb b | ivb b | xorb b => exact (fields_wordB _ b).1
  | initRc4 c | initRc4a c | initVmpc c | initRc4p c | initDrop c | genn c | drop c => exact (fields_wordC _ c).1

theorem decode_encode (i : Instr) : decode (encode i) = .ok i := by
  rw [decode, opField_encode]
  cases i with
  | nop | zero | kclr | ivclr | initIv | gen => exact readN_wordN
  | keyb b | ivb b | xorb b => exact readB_wordB
  | initRc4 c | initRc4a c | initVmpc c | initRc4p c | initDrop c | genn c | drop c => exact readC_wordC

theorem encode_of_decode (h : decode cw = .ok i) : encode i = cw := by
  unfold decode at h
  split at h
  case h_1 hop | h_2 hop | h_3 hop | h_5 hop | h_12 hop | h_13 hop => exact encode_of_readN h rfl hop
  case h_4 hop | h_6 hop | h_14 hop => exact encode_of_readB h (fun _ => rfl) hop
  case h_7 hop | h_8 hop | h_9 hop | h_10 hop | h_11 hop | h_15 hop | h_16 hop =>
    exact encode_of_readC h (fun _ => rfl) hop
  case h_17 => cases h

/-- A word decodes to a command exactly when it is the command's word. -/
theorem decode_eq_ok : decode cw = .ok i ↔ encode i = cw :=
  ⟨encode_of_decode, fun h => h ▸ decode_encode i⟩

/-! ### The rows of the opcode map -/

theorem ownRow (i : Instr) : OwnRow.Statement i := by
  cases i with
  | nop => exact OwnRow.nop
  | zero => exact OwnRow.zero
  | kclr => exact OwnRow.kclr
  | keyb b => exact OwnRow.keyb b
  | ivclr => exact OwnRow.ivclr
  | ivb b => exact OwnRow.ivb b
  | initRc4 c => exact OwnRow.initRc4 c
  | initRc4a c => exact OwnRow.initRc4a c
  | initVmpc c => exact OwnRow.initVmpc c
  | initRc4p c => exact OwnRow.initRc4p c
  | initDrop c => exact OwnRow.initDrop c
  | initIv => exact OwnRow.initIv
  | gen => exact OwnRow.gen
  | xorb b => exact OwnRow.xorb b
  | genn c => exact OwnRow.genn c
  | drop c => exact OwnRow.drop c

/-- The word of a format B row is its opcode and its byte. -/
theorem word_of_maskB (h : cw &&& 0xFFFFFF00 = wordB op 0) : wordB op (byteField cw) = cw := by
  obtain ⟨rfl, hm⟩ := fields_of_maskB h
  exact (word_eq_wordB hm).symm

/-- The word of a format C row is its opcode and its count. -/
theorem word_of_maskC (h : cw &&& 0xFF000000 = wordC op 0) : wordC op (lowField cw) = cw := by
  obtain rfl := opField_of_maskC h
  exact (word_eq_wordC cw).symm

/-- Every word of a row is some command's word (R75). -/
theorem exists_encode_of_matches {r : Row} (hr : r ∈ opcodeMap) (h : r.matches cw = true) : ∃ i, encode i = cw := by
  have h : cw &&& r.mask = r.value := beq_iff_eq.1 h
  simp only [opcodeMap, List.mem_cons, List.not_mem_nil, or_false] at hr
  rcases hr with rfl | rfl | rfl | rfl | rfl | rfl | rfl | rfl | rfl | rfl | rfl | rfl | rfl | rfl | rfl | rfl
  · exact ⟨.nop, (word_of_maskN h).symm⟩
  · exact ⟨.zero, (word_of_maskN h).symm⟩
  · exact ⟨.kclr, (word_of_maskN h).symm⟩
  · exact ⟨.keyb (byteField cw), word_of_maskB h⟩
  · exact ⟨.ivclr, (word_of_maskN h).symm⟩
  · exact ⟨.ivb (byteField cw), word_of_maskB h⟩
  · exact ⟨.initRc4 (lowField cw), word_of_maskC h⟩
  · exact ⟨.initRc4a (lowField cw), word_of_maskC h⟩
  · exact ⟨.initVmpc (lowField cw), word_of_maskC h⟩
  · exact ⟨.initRc4p (lowField cw), word_of_maskC h⟩
  · exact ⟨.initDrop (lowField cw), word_of_maskC h⟩
  · exact ⟨.initIv, (word_of_maskN h).symm⟩
  · exact ⟨.gen, (word_of_maskN h).symm⟩
  · exact ⟨.xorb (byteField cw), word_of_maskB h⟩
  · exact ⟨.genn (lowField cw), word_of_maskC h⟩
  · exact ⟨.drop (lowField cw), word_of_maskC h⟩

/-- The legal words are the encoder's words (R75, R76). -/
theorem wordLegal_iff_exists_encode : wordLegal cw = true ↔ ∃ i, encode i = cw := by
  rw [wordLegal, List.any_eq_true]
  constructor
  · rintro ⟨r, hr, h⟩
    exact exists_encode_of_matches hr h
  · rintro ⟨i, rfl⟩
    obtain ⟨r, hr, -, h⟩ := ownRow i
    exact ⟨r, hr, h⟩

/-! ### The operand in the low bits -/

theorem wordC_eq_or (op : Byte) (c : Count) : wordC op c = wordN op ||| c.setWidth 32 := by
  apply BitVec.eq_of_toNat_eq
  have hc : c.toNat < 2 ^ 24 := c.isLt
  rw [BitVec.toNat_or, wordN_toNat, BitVec.toNat_setWidth_of_le (by decide), wordC_toNat, ← Nat.shiftLeft_eq,
    Nat.shiftLeft_add_eq_or_of_lt hc]

theorem wordB_eq_or (op b : Byte) : wordB op b = wordN op ||| b.setWidth 32 := by
  have h : wordB op b = wordC op (b.setWidth 24) := by
    apply BitVec.eq_of_toNat_eq
    rw [wordB_toNat, wordC_toNat, BitVec.toNat_setWidth_of_le (by decide)]
  rw [h, wordC_eq_or, BitVec.setWidth_setWidth (by decide)]

/-! ### The obligations -/

/-- Settles O1, which needs no premise: the operand types make every command well formed. -/
theorem encodedCommandDecodesToItself : Obligations.EncodedCommandDecodesToItself := fun i _ => decode_encode i

/-- Settles O2, by the opcode the decoder found and the fields the command's format reads. -/
theorem decodedWordEncodesToItself : Obligations.DecodedWordEncodesToItself := fun _ _ => encode_of_decode

/-- Settles O3: the words that decode and the words of the rows are both the encoder's words. -/
theorem decoderAcceptsExactlyTheLegalWords : Obligations.DecoderAcceptsExactlyTheLegalWords := fun _ => by
  rw [wordLegal_iff_exists_encode]
  exact exists_congr fun _ => decode_eq_ok

/-- Settles O4: an operand below the opcode is or-ed with it. -/
theorem commandWordsFollowTheMap : Obligations.CommandWordsFollowTheMap :=
  ⟨⟨rfl, rfl, rfl, rfl, rfl, rfl⟩, fun b => ⟨wordB_eq_or _ b, wordB_eq_or _ b, wordB_eq_or _ b⟩,
    fun c => ⟨wordC_eq_or _ c, wordC_eq_or _ c, wordC_eq_or _ c, wordC_eq_or _ c, wordC_eq_or _ c, wordC_eq_or _ c,
      wordC_eq_or _ c⟩⟩

/-- Settles O5: seven words are their commands' words, two have no command. -/
theorem sampleWordsDecodeByTheMap : Obligations.SampleWordsDecodeByTheMap :=
  ⟨decode_eq_ok.2 rfl, decode_eq_ok.2 rfl, decode_eq_ok.2 rfl, decode_eq_ok.2 rfl, decode_eq_ok.2 rfl,
    decode_eq_ok.2 rfl, decode_eq_ok.2 rfl, by decide, by decide⟩

end Sys2Proof.Proofs
end

section
/-! SUPPORT. The step on a command word at the head of the host's inputs (30_encoding.md R77), and a presented command
sequence (70_reset_and_hazards.md R230). -/

namespace Sys2Proof.Proofs

open Sys2Proof.Machine

variable {cw : Word} {i : Instr} {is : List Instr} {s t : State} {rest : List HostInput}

/-! ### One command word -/

theorem step_command (h : s.port = .command cw :: rest) : step s = runCommand cw (s.setPort rest) := by
  simp only [step, serve, h]

theorem runCommand_zeroWord (he : s.ecode ≠ .none) : runCommand zeroWord s = exec .zero s :=
  (if_pos he).trans (if_pos rfl)

theorem runCommand_ignored (he : s.ecode ≠ .none) (hz : cw ≠ zeroWord) : runCommand cw s = .next s :=
  (if_pos he).trans (if_neg hz)

theorem runCommand_illegal (he : s.ecode = .none) (h : wordLegal cw = false) :
    runCommand cw s = .next (s.setEcode .illegalCmd) := by
  cases hd : decode cw with
  | error r => simp only [runCommand, he, hd, ne_eq, not_true, if_false, raise_of_clean]
  | ok i => exact absurd (wordLegal_iff_exists_encode.2 ⟨i, decode_eq_ok.1 hd⟩) (by simp [h])

theorem runCommand_decoded (he : s.ecode = .none) (h : decode cw = .ok i) : runCommand cw s = exec i s := by
  simp only [runCommand, he, h, ne_eq, not_true, if_false]

/-- Settles O6, one stage of R77 after another. -/
theorem stepRunsTheDecodedCommand : Obligations.StepRunsTheDecodedCommand := by
  intro s cw rest hp
  rw [step_command hp]
  refine ⟨?_, fun he hz => ?_, fun he hl => ?_, fun he i hd => ?_⟩
  · rintro he rfl
    exact runCommand_zeroWord (s := s.setPort rest) he
  · exact runCommand_ignored (s := s.setPort rest) he hz
  · exact runCommand_illegal (s := s.setPort rest) he hl
  · exact runCommand_decoded (s := s.setPort rest) he hd

/-! ### A presented command sequence -/

/-- A command neither reads nor writes the inputs the host has yet to present (R40). -/
theorem exec_setPort (p : List HostInput) (h : exec i s = .next t) :
    t.port = s.port ∧ exec i (s.setPort p) = .next (t.setPort p) := by
  obtain ⟨bs, ho, hp, hx⟩ := noCommandReadsOutOrTheHostsInputs i s t s.out p h
  rw [← ho] at hx
  exact ⟨hp, hx⟩

theorem execAll_cons_eq_next : execAll (i :: is) s = .next t ↔ ∃ u, exec i s = .next u ∧ execAll is u = .next t := by
  cases h : exec i s <;> simp [execAll, h]

/-- Without ZERO a sequence that ends without fault had none when it began (R28, R198). -/
theorem ecode_none_of_execAll (hz : .zero ∉ is) (h : execAll is s = .next t) (ht : t.ecode = .none) :
    s.ecode = .none := by
  induction is generalizing s with
  | nil => cases h; exact ht
  | cons i is ih =>
    obtain ⟨u, hu, h⟩ := execAll_cons_eq_next.1 h
    have hue : u.ecode = .none := ih (List.not_mem_of_not_mem_cons hz) h
    by_contra he
    have hkept : u.ecode = s.ecode := firstFaultCodeIsKept i s u hu he (List.ne_of_not_mem_cons hz).symm
    exact he (hkept ▸ hue)

/-- The block takes the word of a command off the host's inputs and runs the command's rule (R77). -/
theorem step_presented (he : s.ecode = .none) (hp : s.port = .command (encode i) :: rest)
    (h : exec i (s.setPort []) = .next t) : step s = .next (t.setPort rest) := by
  rw [step_command hp, runCommand_decoded (s := s.setPort rest) he (decode_encode i)]
  exact (exec_setPort rest h).2

/-- Settles O50, by induction on the sequence: each command's word is decoded to it and run on the same state but for the
inputs still to come. -/
theorem presentedCommandsRunOneAfterAnother : Obligations.PresentedCommandsRunOneAfterAnother := by
  intro is
  induction is with
  | nil =>
    intro s t _ _ hp h _
    cases h
    exact congrArg Host.Outcome.next (congrArg s.setPort hp :)
  | cons i is ih =>
    intro s t hz he hp h ht
    have his : .zero ∉ is := List.not_mem_of_not_mem_cons hz
    obtain ⟨u, hu, h⟩ := execAll_cons_eq_next.1 h
    have hport : u.setPort [] = u := congrArg u.setPort (exec_setPort [] hu).1.symm
    have hue : u.ecode = .none := ecode_none_of_execAll his h ht
    rw [List.length_cons, Laws.core_run_step (step_presented he hp hu)]
    exact ih (u.setPort (present is)) t his hue rfl (hport.symm ▸ h) ht

end Sys2Proof.Proofs
end

section
/-! SUPPORT. The key buffer and the key schedule (40_key_schedule.md R100 to R104): what KCLR and KEYB write, what the INIT
commands leave, and what of the state they read. -/

namespace Sys2Proof.Proofs

open Sys2Proof.Machine Sys2Proof.Safety

variable {s s' t t' : State} {v w : Variant} {c d : Count}

/-! ### The key buffer -/

/-- Settles O12: KCLR writes KLEN alone. -/
theorem kclrEmptiesTheKeyBuffer : Obligations.KclrEmptiesTheKeyBuffer := fun _ => rfl

/-- Settles O14: on a buffer that is not full one write of KEY at KLEN, on a full one nothing. -/
theorem keybAppendsOneKeyByte : Obligations.KeybAppendsOneKeyByte := by
  refine fun s byte => ⟨fun h => ?_, fun h => exec_of_effect (.keybFull byte (by omega))⟩
  refine ⟨_, exec_of_effect (.keyb byte h), rfl, ?_, fun a ha => ?_, rfl⟩
  · exact Memory.read_write_same s.klen.val byte s.KEY
  · exact Memory.read_write_other byte s.KEY ha

/-! ### What the INIT commands leave -/

theorem initOf_ne_initIv : initOf v c ≠ .initIv := by cases v <;> simp [initOf]

theorem variant_of_initOf_eq (h : initOf v c = initOf w d) : v = w := by
  cases v <;> cases w <;> simp_all [initOf]

theorem var_of_initCommon (hk : s.klen.val ≠ 0) (h : initCommon v c s = .next t) : t.var = v :=
  congrArg State.var (initCommon_frame hk h).1

/-- Settles O34: every INIT command on a key is `INIT_COMMON` (`initCommon_frame`), INIT.IV with the tag RC4. -/
theorem initLeavesBuffersAndOutput : Obligations.InitLeavesBuffersAndOutput := by
  intro i s t hi hk hx
  rcases isInit_cases hi with rfl | ⟨v, c, rfl⟩
  · obtain ⟨n, -, hx⟩ := (exec_initIv_eq_next hk).1 hx
    obtain ⟨hf, hother⟩ := initCommon_frame hk hx
    have hvar : t.var = .rc4 := var_of_initCommon hk hx
    refine ⟨?_, fun _ => hother (by decide), fun v c h => absurd h.symm initOf_ne_initIv, fun _ => hvar⟩
    rw [hvar]; exact hf
  · rw [exec_initOf] at hx
    obtain ⟨hf, hother⟩ := initCommon_frame hk hx
    have hvar : t.var = v := var_of_initCommon hk hx
    refine ⟨?_, fun hne => hother ?_, fun w d h => hvar.trans (variant_of_initOf_eq h),
      fun h => absurd h initOf_ne_initIv⟩
    · rw [hvar]; exact hf
    · rintro rfl; exact hne c rfl

/-- Settles O31: the schedules build the table of `ksaTable` (`exec_initOf_ok`), and a skip of 0 runs no step after them. -/
theorem initBuildsTheKeyScheduleTable : Obligations.InitBuildsTheKeyScheduleTable := by
  intro v s key hk hkey
  obtain ⟨u, bs, w, hu, hS, hperm, hS2, -, hw, hx⟩ := exec_initOf_ok (v := v) (c := 0) hk hkey
  obtain ⟨-, rfl⟩ := Prod.mk.inj (Except.ok.inj hw)
  obtain ⟨hf, hother⟩ := scheduleKeys_frame hu
  refine ⟨_, hx, hS, hperm, fun hv => (hS2 hv).1, hother, ?_⟩
  rw [hf]; rfl

/-! ### What the INIT commands read -/

/-- The key schedule reads the cyclic key bytes alone (R102, R104 d). -/
theorem ksaTableFrom_congr {key key' : Nat → Byte} {L L' : Nat} {ns : List Nat}
    (h : ∀ n ∈ ns, key (n % L) = key' (n % L')) (b : Byte) (f : Byte → Byte) :
    ksaTableFrom key L ns b f = ksaTableFrom key' L' ns b f := by
  induction ns generalizing b f with
  | nil => rfl
  | cons n ns ih =>
    obtain ⟨hn, hns⟩ := List.forall_mem_cons.1 h
    rw [ksaTableFrom, ksaTableFrom, hn, ih hns]

theorem ksaTable_congr {key key' : Nat → Byte} {L L' : Nat} (h : ∀ n < 256, key (n % L) = key' (n % L')) :
    ksaTable key L = ksaTable key' L' :=
  ksaTableFrom_congr (fun n hn => h n (List.mem_range.1 hn)) 0 _

/-- Canonical permutation memories that hold the same table are equal. -/
theorem memory_eq_of_table {M : Space} {f : Byte → Byte} (hM : M.size = 256) (hs : canonical s = true)
    (hs' : canonical s' = true) (h : ∀ a : Byte, Memory.read a.toNat (s.memory M) = some (f a))
    (h' : ∀ a : Byte, Memory.read a.toNat (s'.memory M) = some (f a)) : s.memory M = s'.memory M := by
  obtain ⟨hwf, hin⟩ := canonical_iff.1 hs M
  obtain ⟨hwf', hin'⟩ := canonical_iff.1 hs' M
  refine Memory.ext_of_wf hwf hwf' fun a => ?_
  by_cases ha : a < 256
  · have hb := (h (BitVec.ofNat 8 a)).trans (h' (BitVec.ofNat 8 a)).symm
    rwa [BitVec.toNat_ofNat, Nat.mod_eq_of_lt ha] at hb
  · have hle : M.size ≤ a := by omega
    rw [Memory.read_of_within hin hle, Memory.read_of_within hin' hle]

/-- Two blocks that INIT_COMMON leaves in the same cipher state agree on `j2` and PH too: RC4A steps read them, and for
another variant INIT_COMMON sets them (R103). -/
theorem j2_ph_eq_of_initCommon (hk : s.klen.val ≠ 0) (hk' : s'.klen.val ≠ 0) (h : initCommon v c s = .next t)
    (h' : initCommon v c s' = .next t') (hsame : sameCipher t t') : t.j2 = t'.j2 ∧ t.ph = t'.ph := by
  obtain ⟨-, hother⟩ := initCommon_frame hk h
  obtain ⟨-, hother'⟩ := initCommon_frame hk' h'
  obtain ⟨-, -, -, -, -, hrc4a⟩ := hsame
  by_cases hv : v = .rc4a
  · obtain ⟨hj2, hph, -⟩ := hrc4a ((var_of_initCommon hk h).trans hv)
    exact ⟨hj2.symm, hph.symm⟩
  · obtain ⟨-, hj2, hph⟩ := hother hv
    obtain ⟨-, hj2', hph'⟩ := hother' hv
    exact ⟨hj2.trans hj2'.symm, hph.trans hph'.symm⟩

/-- Two blocks with the same cyclic key bytes come to the same cipher state by the same INIT command (R104 b, d). -/
theorem exec_initOf_sameCipher {key key' : Nat → Byte} (v : Variant) (c : Count) (hs : canonical s = true)
    (hs' : canonical s' = true) (hk : s.klen.val ≠ 0) (hk' : s'.klen.val ≠ 0)
    (hkey : ∀ n < s.klen.val, Memory.read n s.KEY = some (key n))
    (hkey' : ∀ n < s'.klen.val, Memory.read n s'.KEY = some (key' n))
    (hcyc : ∀ n < 256, key (n % s.klen.val) = key' (n % s'.klen.val)) :
    ∃ t t', exec (initOf v c) s = .next t ∧ exec (initOf v c) s' = .next t' ∧ sameCipher t t' := by
  obtain ⟨u, bs, w, -, hS, -, hS2, hc, hw, hx⟩ := exec_initOf_ok (v := v) (c := c) hk hkey
  obtain ⟨u', bs', w', -, hS', -, hS2', hc', hw', hx'⟩ := exec_initOf_ok (v := v) (c := c) hk' hkey'
  rw [← ksaTable_congr hcyc] at hS' hS2'
  have hSeq : u'.S = u.S := memory_eq_of_table (M := .S) rfl (hc' hs') (hc hs) hS' hS
  have hS2eq : v = .rc4a → u'.S2 = u.S2 := fun hv =>
    memory_eq_of_table (M := .S2) rfl (hc' hs') (hc hs) (hS2' hv).1 (hS2 hv).1
  have hstart : sameCipher (startInstance v u) (startInstance v u') :=
    ⟨rfl, rfl, rfl, rfl, hSeq, fun hv => ⟨rfl, rfl, hS2eq hv⟩⟩
  obtain ⟨x, hxw, hsame⟩ := steps_same hstart hw
  obtain ⟨-, rfl⟩ := Prod.mk.inj (Except.ok.inj (hxw.symm.trans hw'))
  exact ⟨_, _, hx, hx', hsame⟩

/-- Settles O36: the cipher states agree by `exec_initOf_sameCipher`, and `j2` and PH for every variant. -/
theorem initDependsOnTheCyclicKeyAlone : Obligations.InitDependsOnTheCyclicKeyAlone := by
  intro v c s s' hs hs' hk hk' hl hl' hcyc
  obtain ⟨key, hkey⟩ := keyLoaded_iff.1 hl
  obtain ⟨key', hkey'⟩ := keyLoaded_iff.1 hl'
  have hcyc' : ∀ n < 256, key (n % s.klen.val) = key' (n % s'.klen.val) := fun n hn => by
    have hr := hkey _ (Nat.mod_lt n (Nat.pos_of_ne_zero hk))
    have hr' := hkey' _ (Nat.mod_lt n (Nat.pos_of_ne_zero hk'))
    exact Option.some.inj (hr.symm.trans ((hcyc n hn).trans hr'))
  obtain ⟨t, t', hx, hx', hsame⟩ := exec_initOf_sameCipher v c hs hs' hk hk' hkey hkey' hcyc'
  have hinit : initCommon v c s = .next t := exec_initOf v c s ▸ hx
  obtain ⟨hj2, hph⟩ := j2_ph_eq_of_initCommon hk hk' hinit (exec_initOf v c s' ▸ hx') hsame
  obtain ⟨hvar, hkeyed, hi, hj, hS, hrc4a⟩ := hsame
  refine ⟨t, t', hx, hx', hi.symm, hj.symm, hj2, hph, hvar.symm, hkeyed.symm, hS.symm, fun hv => ?_⟩
  obtain ⟨-, -, hS2⟩ := hrc4a ((var_of_initCommon hk hinit).trans hv)
  exact hS2.symm

end Sys2Proof.Proofs
end

section
/-! SUPPORT. Baseline RC4 (41_prga_rc4.md R110, R111): one step through GEN, a skip as INIT with skip 0 and then DROP, and
INIT.DROP (45_rc4drop_skip.md R150) as INIT.RC4 with another tag. -/

namespace Sys2Proof.Proofs

open Sys2Proof.Machine Sys2Proof.Safety

variable {s t : State} {v : Variant} {c : Count} {k : Byte} {n : Nat} {ks : List Byte}

/-! ### One baseline step -/

/-- The tags RC4 and RC4DROP run the same step (R165). -/
theorem stepCipher_baseline (h : s.var = .rc4 ∨ s.var = .rc4drop) : stepCipher s = stepRc4 s := by
  rcases h with h | h <;> simp only [stepCipher, h]

theorem read_exchanged_other {a b d : Nat} {x y : Byte} {m : Memory} (ha : d ≠ a) (hb : d ≠ b) :
    Memory.read d (exchanged a b x y m) = Memory.read d m :=
  (Memory.read_write_other x _ hb).trans (Memory.read_write_other y m ha)

/-- Settles O22: on a written table the step succeeds, and `stepRc4_eq_ok` says everything it does. -/
theorem genRunsOneBaselineStep : Obligations.GenRunsOneBaselineStep := by
  intro s hk hv hS
  have hrc4a : s.var ≠ .rc4a := by rcases hv with h | h <;> simp [h]
  obtain ⟨k, t, ht, -⟩ := stepCipher_usable (usable_iff.2 ⟨hk, hS, fun h => absurd h hrc4a⟩)
  obtain ⟨x, y, hx, hy, rfl, hout⟩ := stepRc4_eq_ok.1 ((stepCipher_baseline hv).symm.trans ht)
  exact ⟨_, x, y, k, exec_gen hk ht, hx, hy, read_exchanged_left hx hy, read_exchanged_right,
    fun _ hi hj => read_exchanged_other hi hj, hout, rfl⟩

/-! ### A skip is discarded steps -/

/-- Settles O32: INIT with skip 0 stops after the key schedule, and DROP then runs the steps the skip runs. -/
theorem initWithSkipIsInitThenDrop : Obligations.InitWithSkipIsInitThenDrop := by
  intro v c s hk hl
  obtain ⟨key, hkey⟩ := keyLoaded_iff.1 hl
  obtain ⟨u, ks, w, hu, -, -, -, -, hw, hskip⟩ := exec_initOf_ok (v := v) (c := c) hk hkey
  have hinit : exec (initOf v 0) s = .next ((startInstance v u).setCnt 0) := by
    rw [exec_initOf, initCommon_eq_next hk]
    exact ⟨u, hu, discardSteps_eq_ok.2 ⟨[], _, rfl, rfl⟩⟩
  have hdrop : exec (.drop c) ((startInstance v u).setCnt 0) = .next (w.setCnt 0) :=
    (exec_drop rfl (steps_setCnt 0 hw)).trans (by rw [State.setCnt_setCnt])
  obtain ⟨hframe, -⟩ := initCommon_frame hk (exec_initOf v c s ▸ hskip)
  exact ⟨_, _, hinit, hdrop, hskip, congrArg State.var hframe, congrArg State.keyed hframe, rfl,
    (congrArg State.out hframe :)⟩

/-! ### The tag RC4DROP instead of RC4 -/

theorem stepRc4_setVar (h : stepRc4 s = .ok (k, t)) : stepRc4 (s.setVar v) = .ok (k, t.setVar v) := by
  obtain ⟨x, y, hx, hy, rfl, hout⟩ := stepRc4_eq_ok.1 h
  exact stepRc4_eq_ok.2 ⟨x, y, hx, hy, rfl, hout⟩

/-- Steps with the tag RC4 run alike with the tag RC4DROP (R165). -/
theorem steps_setVar_rc4drop (hv : s.var = .rc4) (h : steps n s = .ok (ks, t)) :
    steps n (s.setVar .rc4drop) = .ok (ks, t.setVar .rc4drop) := by
  induction n generalizing s ks with
  | zero => cases h; rfl
  | succ n ih =>
    obtain ⟨k, u, cs, hu, ht, rfl⟩ := steps_succ_eq_ok.1 h
    have huv : u.var = .rc4 := by rw [(stepCipher_frame hu).1]; exact hv
    rw [stepCipher_baseline (.inl hv)] at hu
    have hu' := (stepCipher_baseline (s := s.setVar .rc4drop) (.inr rfl)).trans (stepRc4_setVar hu)
    exact steps_succ_eq_ok.2 ⟨k, u.setVar .rc4drop, cs, hu', ih huv ht, rfl⟩

theorem raise_setVar {e : ECode} : raise e (s.setVar v) = (raise e s).setVar v := by
  by_cases h : s.ecode = .none
  · rw [raise_of_clean h, raise_of_clean (s := s.setVar v) h]; rfl
  · rw [raise_of_faulted h, raise_of_faulted (s := s.setVar v) h]

/-- INIT.DROP runs the key schedule of INIT.RC4 and then the same steps (R103, R150). -/
theorem initCommon_rc4drop (hk : s.klen.val ≠ 0) (h : initCommon .rc4 c s = .next t) :
    initCommon .rc4drop c s = .next (t.setVar .rc4drop) := by
  obtain ⟨u, hu, ht⟩ := (initCommon_eq_next hk).1 h
  obtain ⟨ks, w, hw, rfl⟩ := discardSteps_eq_ok.1 ht
  exact (initCommon_eq_next hk).2 ⟨u, hu, discardSteps_eq_ok.2 ⟨ks, _, steps_setVar_rc4drop rfl hw, rfl⟩⟩

theorem exec_stepping_setVar_rc4drop {i : Instr} (hi : isStepping i = true) (hv : s.var = .rc4)
    (h : exec i s = .next t) : exec i (s.setVar .rc4drop) = .next (t.setVar .rc4drop) := by
  cases hk : s.keyed with
  | false =>
    cases (exec_stepping_unkeyed hi hk).symm.trans h
    rw [exec_stepping_unkeyed hi (s := s.setVar .rc4drop) hk, raise_setVar]
  | true =>
    obtain ⟨ks, u, hu, rfl⟩ := (exec_stepping_eq_next hi hk).1 h
    exact (exec_stepping_eq_next hi (s := s.setVar .rc4drop) hk).2 ⟨ks, _, steps_setVar_rc4drop hv hu, rfl⟩

/-- Settles O35: INIT.RC4 completes on a loaded key (O32), and key schedule and steps run alike with the other tag. -/
theorem initDropIsInitRc4ButForTheTag : Obligations.InitDropIsInitRc4ButForTheTag := by
  refine ⟨fun c s hk hl => ?_, fun _ _ _ => exec_stepping_setVar_rc4drop⟩
  obtain ⟨-, t, -, -, ht, -⟩ := initWithSkipIsInitThenDrop .rc4 c s hk hl
  exact ⟨t, ht, initCommon_rc4drop hk ht⟩

end Sys2Proof.Proofs
end

section
/-! SUPPORT. RC4A (42_prga_rc4a.md R120, R123): one step through GEN in either phase, and pairs of steps, which
move the two tables alike. -/

namespace Sys2Proof.Proofs

open Sys2Proof.Machine Sys2Proof.Safety

variable {s t : State} {k : Byte} {n : Nat} {ks : List Byte}

/-! ### One RC4A step -/

theorem stepCipher_rc4aFirst (hv : s.var = .rc4a) (hp : s.ph = .first) : stepCipher s = stepRc4aFirst s := by
  simp only [stepCipher, hv, stepRc4a, hp]

theorem stepCipher_rc4aSecond (hv : s.var = .rc4a) (hp : s.ph = .second) : stepCipher s = stepRc4aSecond s := by
  simp only [stepCipher, hv, stepRc4a, hp]

/-- Settles O23: on written tables the step succeeds, and in each phase its equivalence says everything it does. -/
theorem genRunsOneRc4aStep : Obligations.GenRunsOneRc4aStep := by
  intro s hk hv hS hS2
  obtain ⟨k, t, ht, -⟩ := stepCipher_usable (usable_iff.2 ⟨hk, hS, fun _ => hS2⟩)
  constructor <;> intro hp
  · obtain ⟨x, y, hx, hy, rfl, hout⟩ := stepRc4aFirst_eq_ok.1 ((stepCipher_rc4aFirst hv hp).symm.trans ht)
    rw [hp] at ht
    exact ⟨_, x, y, k, exec_gen hk ht, hx, hy, read_exchanged_left hx hy, read_exchanged_right,
      fun _ hi hj => read_exchanged_other hi hj, hout, rfl⟩
  · obtain ⟨x, y, hx, hy, rfl, hout⟩ := stepRc4aSecond_eq_ok.1 ((stepCipher_rc4aSecond hv hp).symm.trans ht)
    rw [hp] at ht
    exact ⟨_, x, y, k, exec_gen hk ht, hx, hy, read_exchanged_left hx hy, read_exchanged_right,
      fun _ hi hj => read_exchanged_other hi hj, hout, rfl⟩

/-! ### Pairs of RC4A steps -/

/-- Between two pairs of steps: the second table and counter equal the first (R123). -/
structure Rc4aPaired (s : State) : Prop where
  var : s.var = .rc4a
  ph : s.ph = .first
  table : s.S2 = s.S
  counter : s.j2 = s.j

/-- Within a pair: `S` and `j` have made the move at `i` that `S2` and `j2` make in the SECOND phase. -/
structure Rc4aHalfway (s : State) : Prop where
  var : s.var = .rc4a
  ph : s.ph = .second
  ahead : ∃ x y, Memory.read s.i.toNat s.S2 = some x ∧ Memory.read (add8 s.j2 x).toNat s.S2 = some y ∧
    s.j = add8 s.j2 x ∧ s.S = exchanged s.i.toNat (add8 s.j2 x).toNat x y s.S2

theorem rc4aHalfway_of_step (hs : Rc4aPaired s) (h : stepCipher s = .ok (k, t)) : Rc4aHalfway t := by
  obtain ⟨hv, hp, hS, hj⟩ := hs
  obtain ⟨x, y, hx, hy, ht, -⟩ := stepRc4aFirst_eq_ok.1 ((stepCipher_rc4aFirst hv hp).symm.trans h)
  rw [← hS] at hx
  rw [← hS, ← hj] at hy ht
  subst ht
  exact ⟨hv, congrArg Phase.toggle hp, x, y, hx, hy, rfl, rfl⟩

theorem rc4aPaired_of_step (hs : Rc4aHalfway s) (h : stepCipher s = .ok (k, t)) : Rc4aPaired t := by
  obtain ⟨hv, hp, x, y, hx, hy, hj, hS⟩ := hs
  obtain ⟨x', y', hx', hy', rfl, -⟩ := stepRc4aSecond_eq_ok.1 ((stepCipher_rc4aSecond hv hp).symm.trans h)
  obtain rfl : x = x' := Option.some.inj (hx.symm.trans hx')
  obtain rfl : y = y' := Option.some.inj (hy.symm.trans hy')
  exact ⟨hv, congrArg Phase.toggle hp, hS.symm, hj.symm⟩

/-- Steps from a paired state: paired after an even number of them, halfway after an odd one. -/
theorem rc4a_steps_parity (hs : Rc4aPaired s) (h : steps n s = .ok (ks, t)) :
    (n % 2 = 0 → Rc4aPaired t) ∧ (n % 2 = 1 → Rc4aHalfway t) := by
  induction n generalizing ks t with
  | zero => cases h; exact ⟨fun _ => hs, fun h1 => absurd h1 (by decide)⟩
  | succ n ih =>
    obtain ⟨bs, u, cs, hu, hlast, -⟩ := steps_split h
    obtain ⟨k, ht, -⟩ := steps_one_eq_ok.1 hlast
    obtain ⟨heven, hodd⟩ := ih hu
    exact ⟨fun hn => rc4aPaired_of_step (hodd (by omega)) ht, fun hn => rc4aHalfway_of_step (heven (by omega)) ht⟩

/-- Settles O38: DROP runs its count of steps, and the pairs among them bring the two tables together again. -/
theorem rc4aPairsKeepTheTablesEqual : Obligations.Rc4aPairsKeepTheTablesEqual := by
  intro n s hk hv hS hp hS2 hj
  obtain ⟨ks, u, hu, -⟩ := steps_usable n.toNat (usable_iff.2 ⟨hk, hS, fun _ => hS2 ▸ hS⟩)
  obtain ⟨heven, hodd⟩ := rc4a_steps_parity ⟨hv, hp, hS2, hj⟩ hu
  exact ⟨_, exec_drop hk hu, fun hn => ⟨(heven hn).table, (heven hn).counter, (heven hn).ph⟩, fun hn => (hodd hn).ph⟩

end Sys2Proof.Proofs
end

section
/-! SUPPORT. VMPC (43_prga_vmpc.md R130): one step through GEN. -/

namespace Sys2Proof.Proofs

open Sys2Proof.Machine Sys2Proof.Safety

variable {s : State}

theorem stepCipher_vmpc (hv : s.var = .vmpc) : stepCipher s = stepVmpc s := by
  simp only [stepCipher, hv]

/-- Settles O24: on a written table the step succeeds, and `stepVmpc_eq_ok` says everything it does; its two writes are an
exchange of the entries at `i` and at the new `j`, also where the two indexes are one. -/
theorem genRunsOneVmpcStep : Obligations.GenRunsOneVmpcStep := by
  intro s hk hv hS
  have hrc4a : s.var ≠ .rc4a := by simp [hv]
  obtain ⟨k, t, ht, -⟩ := stepCipher_usable (usable_iff.2 ⟨hk, hS, fun h => absurd h hrc4a⟩)
  obtain ⟨a, j', b, c, ha, hj, hb, hc, hout, rfl⟩ := stepVmpc_eq_ok.1 ((stepCipher_vmpc hv).symm.trans ht)
  exact ⟨_, a, j', b, c, k, exec_gen hk ht, ha, hj, hb, hc, hout, read_exchanged_left ha hb, read_exchanged_right,
    fun _ hi hj => read_exchanged_other hi hj, rfl⟩

end Sys2Proof.Proofs
end

section
/-! SUPPORT. RC4+ (44_prga_rc4plus.md R140, R141): one step through GEN, and the `i`, `j` and `S` it shares with baseline
RC4. -/

namespace Sys2Proof.Proofs

open Sys2Proof.Machine Sys2Proof.Safety

variable {s t : State} {k : Byte} {n : Nat} {ks : List Byte}

/-! ### One RC4+ step -/

theorem stepCipher_rc4p (hv : s.var = .rc4p) : stepCipher s = stepRc4p s := by
  simp only [stepCipher, hv]

/-- Settles O25: on a written table the step succeeds, and `stepRc4p_eq_ok` says everything it does; the entry at the new `j`
after the exchange, the middle term of `c`, is the entry `a` that was at the new `i` before it. -/
theorem genRunsOneRc4pStep : Obligations.GenRunsOneRc4pStep := by
  intro s hk hv hS
  have hrc4a : s.var ≠ .rc4a := by simp [hv]
  obtain ⟨k, t, ht, -⟩ := stepCipher_usable (usable_iff.2 ⟨hk, hS, fun h => absurd h hrc4a⟩)
  obtain ⟨a, b, sv, sw, x, y, z, ha, hb, rfl, hsv, hsw, hx, hy, hz, rfl⟩ :=
    stepRc4p_eq_ok.1 ((stepCipher_rc4p hv).symm.trans ht)
  exact ⟨_, _, _, a, b, sv, a, sw, x, y, z, exec_gen hk ht, rfl, ha, rfl, hb, read_exchanged_left ha hb,
    read_exchanged_right, fun _ hi hj => read_exchanged_other hi hj, hsv, read_exchanged_right, hsw, hx, hy, hz, rfl⟩

/-! ### The baseline trajectory -/

/-- An RC4+ step moves the state as a baseline step does; on a written table the baseline step has an output byte too
(R141). -/
theorem stepRc4_of_stepRc4p (hS : fullTable s.S = true) (h : stepRc4p s = .ok (k, t)) :
    ∃ k', stepRc4 s = .ok (k', t) := by
  obtain ⟨a, b, -, -, -, -, -, ha, hb, rfl, -⟩ := stepRc4p_eq_ok.1 h
  obtain ⟨k', hk'⟩ := fullTable_iff.1 (fullTable_exchanged hS) (add8 b a)
  exact ⟨k', stepRc4_eq_ok.2 ⟨a, b, ha, hb, rfl, hk'⟩⟩

/-- Any number of RC4+ steps, with the tag RC4 instead: other bytes, the same states but for the tag. -/
theorem steps_setVar_rc4_of_rc4p (hv : s.var = .rc4p) (hS : fullTable s.S = true) (h : steps n s = .ok (ks, t)) :
    ∃ ks', steps n (s.setVar .rc4) = .ok (ks', t.setVar .rc4) := by
  induction n generalizing ks t with
  | zero => cases h; exact ⟨[], rfl⟩
  | succ n ih =>
    obtain ⟨bs, u, cs, hu, hlast, -⟩ := steps_split h
    obtain ⟨k, ht, -⟩ := steps_one_eq_ok.1 hlast
    obtain ⟨bs', hu'⟩ := ih hu
    have hrc4p : stepRc4p u = .ok (k, t) := (stepCipher_rc4p ((steps_var hu).trans hv)).symm.trans ht
    obtain ⟨k', hrc4⟩ := stepRc4_of_stepRc4p ((steps_fullTable hu).1 hS) hrc4p
    have ht' := (stepCipher_baseline (s := u.setVar .rc4) (.inl rfl)).trans (stepRc4_setVar hrc4)
    exact ⟨bs' ++ [k'], steps_add hu' (steps_one_eq_ok.2 ⟨k', ht', rfl⟩)⟩

/-- Settles O37: DROP runs its count of steps and drops their bytes, the one thing in which the two tags differ. -/
theorem rc4pFollowsTheBaselineTrajectory : Obligations.Rc4pFollowsTheBaselineTrajectory := by
  intro n s hs hv
  obtain ⟨hk, hS, -⟩ := usable_iff.1 hs
  obtain ⟨ks, u, hu, -⟩ := steps_usable n.toNat hs
  obtain ⟨ks', hu'⟩ := steps_setVar_rc4_of_rc4p hv hS hu
  exact ⟨_, exec_drop hk hu, exec_drop (s := s.setVar .rc4) hk hu'⟩

end Sys2Proof.Proofs
end

section
/-! SUPPORT. The IV buffer and skips (45_rc4drop_skip.md R150 to R157): what IVCLR and IVB write, DROP as GENN without
output, how skips and counts compose, and INIT.IV. -/

namespace Sys2Proof.Proofs

open Sys2Proof.Machine Sys2Proof.Safety

variable {i i' : Instr} {s t u : State} {v : Variant} {a b c n : Count} {ks cs : List Byte}

/-! ### The IV buffer -/

/-- Settles O13: IVCLR writes IVLEN alone. -/
theorem ivclrEmptiesTheIvBuffer : Obligations.IvclrEmptiesTheIvBuffer := fun _ => rfl

/-- Settles O15: on a buffer that is not full one write of IV at IVLEN, on a full one nothing. -/
theorem ivbAppendsOneIvByte : Obligations.IvbAppendsOneIvByte := by
  refine fun s byte => ⟨fun h => ?_, fun h => exec_of_effect (.ivbFull byte (by omega))⟩
  refine ⟨_, exec_of_effect (.ivb byte h), rfl, ?_, fun a ha => ?_, rfl⟩
  · exact Memory.read_write_same s.ivlen.val byte s.IV
  · exact Memory.read_write_other byte s.IV ha

/-! ### DROP beside GENN -/

/-- Settles O28: both run the same `n` steps, of which DROP drops the bytes and GENN appends them to OUT. -/
theorem dropIsGennWithoutOutput : Obligations.DropIsGennWithoutOutput := by
  refine ⟨fun s n hs => ?_, fun s n hk he => ?_⟩
  · obtain ⟨hk, -, -⟩ := usable_iff.1 hs
    obtain ⟨ks, u, hu, -⟩ := steps_usable n.toNat hs
    exact ⟨u.setCnt 0, exec_drop hk hu, (steps_out hu :), rfl, ks, steps_length hu, exec_genn hk hu⟩
  · rw [exec_stepping_unkeyed rfl hk, raise_of_clean he]
    rfl

/-! ### Composition of counts -/

/-- Steps of two counts whose sum is a count compose to the steps of the sum (R157). -/
theorem steps_toNat_add (hab : a.toNat + b.toNat < 2 ^ 24) (ht : steps a.toNat s = .ok (ks, t))
    (hu : steps b.toNat t = .ok (cs, u)) : steps (a + b).toNat s = .ok (ks ++ cs, u) := by
  rw [BitVec.toNat_add, Nat.mod_eq_of_lt hab]
  exact steps_add ht hu

/-- DROP reads no CNT: it runs alike from whatever the command before it has left there. -/
theorem exec_drop_setCnt (hk : t.keyed = true) (hu : steps n.toNat t = .ok (cs, u)) :
    exec (.drop n) (t.setCnt c) = .next (u.setCnt 0) :=
  (exec_drop (s := t.setCnt c) hk (steps_setCnt c hu) :)

/-- GENN reads no CNT and appends to whatever OUT holds. -/
theorem exec_genn_setCnt_setOut {o : List Byte} (hk : t.keyed = true) (hu : steps n.toNat t = .ok (cs, u)) :
    exec (.genn n) ((t.setCnt c).setOut o) = .next ((u.setCnt 0).setOut (o ++ cs)) :=
  (exec_genn (s := (t.setCnt c).setOut o) hk (steps_setOut o (steps_setCnt c hu)) :)

/-- R157 (b). -/
theorem exec_drop_add (hs : usable s = true) (hab : a.toNat + b.toNat < 2 ^ 24) : ∃ t u,
    exec (.drop a) s = .next t ∧ exec (.drop b) t = .next u ∧ exec (.drop (a + b)) s = .next u ∧ u.out = s.out := by
  obtain ⟨hk, -, -⟩ := usable_iff.1 hs
  obtain ⟨ks, t, ht, hts⟩ := steps_usable a.toNat hs
  obtain ⟨cs, u, hu, -⟩ := steps_usable b.toNat hts
  exact ⟨_, _, exec_drop hk ht, exec_drop_setCnt ((steps_keyed ht).trans hk) hu,
    exec_drop hk (steps_toNat_add hab ht hu), (steps_out hu).trans (steps_out ht)⟩

/-- R157 (c). -/
theorem exec_genn_add (hs : usable s = true) (hab : a.toNat + b.toNat < 2 ^ 24) : ∃ t u,
    exec (.genn a) s = .next t ∧ exec (.genn b) t = .next u ∧ exec (.genn (a + b)) s = .next u := by
  obtain ⟨hk, -, -⟩ := usable_iff.1 hs
  obtain ⟨ks, t, ht, hts⟩ := steps_usable a.toNat hs
  obtain ⟨cs, u, hu, -⟩ := steps_usable b.toNat hts
  refine ⟨_, _, exec_genn hk ht, exec_genn_setCnt_setOut ((steps_keyed ht).trans hk) hu, ?_⟩
  rw [exec_genn hk (steps_toNat_add hab ht hu), List.append_assoc]

/-! ### A skip and the output after it -/

/-- An INIT command on a loaded key leaves a keyed block with written tables (R103, R38). -/
theorem usable_of_exec_initOf (hk : s.klen.val ≠ 0) (hl : keyLoaded s = true) (h : exec (initOf v c) s = .next t) :
    usable t = true := by
  obtain ⟨key, hkey⟩ := keyLoaded_iff.1 hl
  obtain ⟨u, ks, w, -, -, hS, hS2, -, hw, hx⟩ := exec_initOf_ok (v := v) (c := c) hk hkey
  cases hx.symm.trans h
  have hstart : usable (startInstance v u) = true :=
    usable_iff.2 ⟨rfl, fullTable_of_isPermutation hS, fun hv => fullTable_of_isPermutation (hS2 hv).2⟩
  obtain ⟨ks', w', hw', hus⟩ := steps_usable c.toNat hstart
  obtain ⟨-, rfl⟩ := Prod.mk.inj (Except.ok.inj (hw.symm.trans hw'))
  exact hus

theorem out_of_exec_initOf (hk : s.klen.val ≠ 0) (h : exec (initOf v c) s = .next t) : t.out = s.out :=
  (congrArg State.out (initCommon_frame hk (exec_initOf v c s ▸ h)).1 :)

theorem execAll_pair (h : exec i s = .next t) (h' : exec i' t = .next u) : execAll [i, i'] s = .next u :=
  execAll_cons_eq_next.2 ⟨t, h, execAll_cons_eq_next.2 ⟨u, h', rfl⟩⟩

/-- R157 (e): both blocks run the same `c + n` steps, the skipped one without the bytes of the first `c`. -/
theorem skip_drops_first_bytes (hk : s.klen.val ≠ 0) (hl : keyLoaded s = true) (hcn : c.toNat + n.toNat < 2 ^ 24) :
    ∃ t u bs cs, execAll [initOf v 0, .genn (c + n)] s = .next t ∧ execAll [initOf v c, .genn n] s = .next u ∧
      t.out = s.out ++ bs ++ cs ∧ bs.length = c.toNat ∧ u.out = s.out ++ cs ∧ cs.length = n.toNat := by
  obtain ⟨t, u, ht, hdrop, hskip, -⟩ := initWithSkipIsInitThenDrop v c s hk hl
  have hts : usable t = true := usable_of_exec_initOf hk hl ht
  obtain ⟨htk, -, -⟩ := usable_iff.1 hts
  obtain ⟨bs, w, hw, hws⟩ := steps_usable c.toNat hts
  obtain ⟨cs, x, hx, -⟩ := steps_usable n.toNat hws
  cases hdrop.symm.trans (exec_drop htk hw)
  refine ⟨_, _, bs, cs, execAll_pair ht (exec_genn htk (steps_toNat_add hcn hw hx)),
    execAll_pair hskip (exec_genn ((steps_keyed hw).trans htk) (steps_setCnt 0 hx)), ?_, steps_length hw, ?_,
    steps_length hx⟩
  · rw [State.setOut_out, out_of_exec_initOf hk ht, List.append_assoc]
  · rw [State.setOut_out, out_of_exec_initOf hk hskip]

/-- Settles O30: (a) is O32, (d) is O28, the others are the lemmas above. -/
theorem skipEquivalenceAndComposition : Obligations.SkipEquivalenceAndComposition := by
  refine ⟨fun v c s hk hl => ?_, fun _ _ _ => exec_drop_add, fun _ _ _ => exec_genn_add, fun a s hs => ?_,
    fun _ _ _ _ => skip_drops_first_bytes⟩
  · obtain ⟨t, u, ht, hdrop, hskip, -⟩ := initWithSkipIsInitThenDrop v c s hk hl
    exact ⟨t, u, ht, hdrop, hskip⟩
  · obtain ⟨hdropGenn, -⟩ := dropIsGennWithoutOutput
    obtain ⟨u, hdrop, hout, -, bs, -, hgenn⟩ := hdropGenn s a hs
    exact ⟨_, u, hgenn, hdrop, by rw [← hout]⟩

/-! ### INIT.IV -/

/-- On a loaded IV the model's loop computes the skip of the formula (R154). -/
theorem ivSkip_eq_ivSkipNumber {iv : Nat → Byte} (hiv : ∀ k < s.ivlen.val, Memory.read k s.IV = some (iv k)) :
    ivSkip s = .ok (ivSkipNumber iv s.ivlen.val) := by
  unfold ivSkip ivSkipNumber
  by_cases h : s.ivlen = 0
  · rw [if_pos h, if_pos (Fin.val_eq_zero_iff.2 h)]
  · rw [if_neg h, if_neg (mt Fin.val_eq_zero_iff.1 h), ivSum_ok fun k hk => hiv k (List.mem_range.1 hk), Nat.zero_add]
    rfl

/-- Settles O33: the skip is the formula's (`ivSkip_eq_ivSkipNumber`), and INIT.RC4 completes with any skip (O32). -/
theorem initIvSkipsByTheIvFormula : Obligations.InitIvSkipsByTheIvFormula := by
  intro s iv hk hl hiv
  obtain ⟨-, t, -, -, ht, hvar, -⟩ :=
    initWithSkipIsInitThenDrop .rc4 (BitVec.ofNat 24 (ivSkipNumber iv s.ivlen.val)) s hk hl
  exact ⟨t, (exec_initIv_eq_next hk).2 ⟨_, ivSkip_eq_ivSkipNumber hiv, ht⟩, ht, hvar⟩

end Sys2Proof.Proofs
end

section
/-! SUPPORT. The stepping commands (46_driver_xor.md R165 to R169): GEN, XORB and GENN as the same steps, their frame, and
ENCDEC there and back on two blocks in the same cipher state and on one block initialised again. -/

namespace Sys2Proof.Proofs

open Sys2Proof.Machine Sys2Proof.Safety

variable {i : Instr} {s s' t u : State} {P ks : List Byte}

/-! ### Commands of one step -/

theorem exec_stepping_unkeyed_clean (hi : isStepping i = true) (hk : s.keyed = false) (he : s.ecode = .none) :
    exec i s = .next { s with ecode := .notKeyed } := by
  rw [exec_stepping_unkeyed hi hk, raise_of_clean he]
  rfl

/-- Settles O26: `exec_gen` and `exec_xorb` on the one step both commands run. -/
theorem xorbCombinesWithTheGenByte : Obligations.XorbCombinesWithTheGenByte := by
  refine ⟨fun s byte hs => ?_, fun s byte => exec_stepping_unkeyed_clean rfl⟩
  obtain ⟨hk, -, -⟩ := usable_iff.1 hs
  obtain ⟨k, t, ht, -⟩ := stepCipher_usable hs
  exact ⟨t, k, stepCipher_out ht, exec_gen hk ht, exec_xorb hk ht⟩

/-- A sequence of commands `c a` that each run one step and emit `f a k` for its byte `k` runs one step for each command
and emits the bytes in order. -/
theorem execAll_map_of_step {α : Type} {c : α → Instr} {f : α → Byte → Byte} {l : List α}
    (hc : ∀ {a : α} {s u : State} {k : Byte}, s.keyed = true → stepCipher s = .ok (k, u) →
      exec (c a) s = .next (u.setOut (s.out ++ [f a k])))
    (hk : s.keyed = true) (h : steps l.length s = .ok (ks, u)) :
    execAll (l.map c) s = .next (u.setOut (s.out ++ List.zipWith f l ks)) := by
  induction l generalizing s u ks with
  | nil =>
    obtain ⟨rfl, rfl⟩ := Prod.mk.inj (Except.ok.inj h)
    rw [List.zipWith_nil_left, List.append_nil]
    rfl
  | cons a l ih =>
    obtain ⟨k, v, cs, hv, hu, rfl⟩ := steps_succ_eq_ok.1 h
    have hvk : v.keyed = true := (steps_keyed (steps_one_eq_ok.2 ⟨k, hv, rfl⟩)).trans hk
    have hrest := ih (s := v.setOut (s.out ++ [f a k])) hvk (steps_setOut _ hu)
    rw [State.setOut_out, List.append_assoc] at hrest
    exact execAll_cons_eq_next.2 ⟨_, hc hk hv, hrest⟩

theorem execAll_replicate_gen {n : Nat} (hk : s.keyed = true) (h : steps n s = .ok (ks, u)) :
    execAll (List.replicate n .gen) s = .next (u.setOut (s.out ++ ks)) := by
  obtain rfl : ks.length = n := steps_length h
  have hrun := execAll_map_of_step (c := fun _ => .gen) (f := fun _ k => k) exec_gen hk h
  rwa [List.map_const', List.zipWith_self, List.map_id'] at hrun

/-- Settles O27: GENN is `n` steps (`exec_genn`), and so are `n` GEN commands (`execAll_replicate_gen`), which do not write
CNT. -/
theorem gennIsCountTimesGen : Obligations.GennIsCountTimesGen := by
  refine ⟨fun s n hs => ?_, fun s n => exec_stepping_unkeyed_clean rfl⟩
  obtain ⟨hk, -, -⟩ := usable_iff.1 hs
  obtain ⟨ks, u, hu, -⟩ := steps_usable n.toNat hs
  refine ⟨_, ks, exec_genn hk hu, steps_length hu, rfl, rfl, ?_⟩
  rw [execAll_replicate_gen hk hu, ← steps_cnt hu]
  rfl

/-! ### The frame -/

/-- Settles O29: a stepping command is some steps, then a write of CNT and OUT (`exec_stepping_eq_next`). -/
theorem steppingCommandsWriteCipherStateOnly : Obligations.SteppingCommandsWriteCipherStateOnly := by
  intro i s t hi hk hx
  obtain ⟨ks, u, hu, rfl⟩ := (exec_stepping_eq_next hi hk).1 hx
  obtain ⟨hfull, hfull2⟩ := steps_fullTable hu
  obtain ⟨hperm, hperm2⟩ := steps_isPermutation hu
  refine ⟨?_, fun hv => (steps_notRc4a hv hu :), hfull, hfull2, hperm, hperm2⟩
  conv_lhs => rw [steps_write hu]
  rfl

/-! ### ENCDEC -/

theorem execAll_pseudoEncdec (hk : s.keyed = true) (h : steps P.length s = .ok (ks, u)) :
    execAll (pseudoEncdec P) s = .next (u.setOut (s.out ++ List.zipWith (· ^^^ ·) P ks)) :=
  execAll_map_of_step (c := .xorb) exec_xorb hk h

/-- Combining with the same keystream a second time gives the data back (R169). -/
theorem zipWith_xor_zipWith_xor (h : P.length = ks.length) :
    List.zipWith (· ^^^ ·) (List.zipWith (· ^^^ ·) P ks) ks = P := by
  refine List.ext_getElem (by simp [h]) fun n _ _ => ?_
  rw [List.getElem_zipWith, List.getElem_zipWith, BitVec.xor_assoc, BitVec.xor_self, BitVec.xor_zero]

/-- A second block in the same cipher state, given the first block's output, emits the first block's input: both run the
same steps (R169 b). -/
theorem execAll_pseudoEncdec_back (hk : s.keyed = true) (hs : sameCipher s s') (h : steps P.length s = .ok (ks, u)) :
    ∃ t', execAll (pseudoEncdec (List.zipWith (· ^^^ ·) P ks)) s' = .next t' ∧ t'.out = s'.out ++ P ∧
      sameCipher u t' := by
  have hlen : (List.zipWith (· ^^^ ·) P ks).length = P.length := by
    rw [List.length_zipWith, steps_length h, Nat.min_self]
  obtain ⟨u', hu', hsame⟩ := steps_same hs h
  obtain ⟨-, hkeyed, -⟩ := hs
  refine ⟨_, execAll_pseudoEncdec (hkeyed.trans hk) (hlen.symm ▸ hu'), ?_, hsame⟩
  rw [State.setOut_out, zipWith_xor_zipWith_xor (steps_length h).symm]

/-- Settles O39, by `execAll_pseudoEncdec` on the first block and `execAll_pseudoEncdec_back` on the second. -/
theorem encdecRoundTripOnMatchedState : Obligations.EncdecRoundTripOnMatchedState := by
  intro P s s' hs hsame
  obtain ⟨hk, -, -⟩ := usable_iff.1 hs
  obtain ⟨ks, u, hu, -⟩ := steps_usable P.length hs
  obtain ⟨t', ht', hout, hend⟩ := execAll_pseudoEncdec_back hk hsame hu
  refine ⟨_, t', _, execAll_pseudoEncdec hk hu, rfl, ?_, ht', hout, hend⟩
  rw [List.length_zipWith, steps_length hu, Nat.min_self]

/-! ### The same INIT command again -/

/-- The key and IV buffers and their lengths are the same. -/
def SameBuffers (s t : State) : Prop :=
  t.KEY = s.KEY ∧ t.klen = s.klen ∧ t.IV = s.IV ∧ t.ivlen = s.ivlen

theorem sameBuffers_of_exec_init (hi : isInit i = true) (h : exec i s = .next t) : SameBuffers s t := by
  have hne : ∀ {j : Instr}, isInit j = false → i ≠ j := by
    rintro j hj rfl
    exact Bool.false_ne_true (hj.symm.trans hi)
  obtain ⟨hkey, hiv, -⟩ := onlyBufferCommandsWriteTheBuffers i s t h (hne rfl)
  obtain ⟨hKEY, hklen⟩ := hkey fun b => hne rfl
  obtain ⟨hIV, hivlen⟩ := hiv fun b => hne rfl
  exact ⟨hKEY, hklen (hne rfl), hIV, hivlen (hne rfl)⟩

theorem klen_ne_zero_of_sameBuffers (hb : SameBuffers s t) (hk : s.klen.val ≠ 0) : t.klen.val ≠ 0 := by
  obtain ⟨-, hklen, -, -⟩ := hb
  rwa [hklen]

theorem sameBuffers_of_steps {n : Nat} (hb : SameBuffers s t) (h : steps n t = .ok (ks, u)) : SameBuffers s u := by
  rw [steps_write h]
  exact hb

theorem ivSum_congr {ns : List Nat} {acc : Nat} (h : t.IV = s.IV) : ivSum ns acc t = ivSum ns acc s := by
  induction ns generalizing acc with
  | nil => rfl
  | cons n ns ih => simp only [ivSum, memRead, State.memory_IV, h, ih]

/-- The skip of INIT.IV reads IV and IVLEN alone (R154). -/
theorem ivSkip_of_sameBuffers (h : SameBuffers s t) : ivSkip t = ivSkip s := by
  obtain ⟨-, -, hIV, hivlen⟩ := h
  rw [ivSkip, ivSkip, hivlen, ivSum_congr hIV]

theorem keyed_out_of_exec_init (hi : isInit i = true) (hk : s.klen.val ≠ 0) (h : exec i s = .next t) :
    t.keyed = true ∧ t.out = s.out := by
  obtain ⟨hf, -⟩ := initLeavesBuffersAndOutput i s t hi hk h
  exact ⟨congrArg State.keyed hf, (congrArg State.out hf :)⟩

theorem exec_initOf_of_sameBuffers (v : Variant) (c : Count) (hs : Inv s) (ht : Inv t) (hk : s.klen.val ≠ 0)
    (hb : SameBuffers s t) :
    ∃ u u', exec (initOf v c) s = .next u ∧ exec (initOf v c) t = .next u' ∧ sameCipher u u' := by
  obtain ⟨hKEY, hklen, -, -⟩ := hb
  obtain ⟨key, hkey⟩ := keyLoaded_iff.1 hs.key
  refine exec_initOf_sameCipher v c hs.canon ht.canon hk (hklen.symm ▸ hk) hkey (key' := key) ?_ fun n _ => ?_
  · rw [hKEY, hklen]
    exact hkey
  · rw [hklen]

/-- What an INIT command leaves of the cipher state depends on the buffers alone (R223, R225). -/
theorem exec_init_of_sameBuffers (hi : isInit i = true) (hs : Inv s) (ht : Inv t) (hk : s.klen.val ≠ 0)
    (hb : SameBuffers s t) : ∃ u u', exec i s = .next u ∧ exec i t = .next u' ∧ sameCipher u u' := by
  rcases isInit_cases hi with rfl | ⟨v, c, rfl⟩
  · obtain ⟨n, hn⟩ := ivSkip_of_ivLoaded hs.iv
    obtain ⟨u, u', hu, hu', hsame⟩ := exec_initOf_of_sameBuffers .rc4 (BitVec.ofNat 24 n) hs ht hk hb
    exact ⟨u, u', (exec_initIv_eq_next hk).2 ⟨n, hn, hu⟩,
      (exec_initIv_eq_next (klen_ne_zero_of_sameBuffers hb hk)).2 ⟨n, (ivSkip_of_sameBuffers hb).trans hn, hu'⟩, hsame⟩
  · exact exec_initOf_of_sameBuffers v c hs ht hk hb

/-- Settles O40: ENCDEC leaves the buffers and the invariant, so the second INIT comes to the first one's cipher state
(`exec_init_of_sameBuffers`), from which ENCDEC gives the data back. -/
theorem reinitialisedBlockDecryptsItsOwnOutput : Obligations.ReinitialisedBlockDecryptsItsOwnOutput := by
  intro i P s hi hs hk
  obtain ⟨u, hu, huInv⟩ := exec_init_inv hi hk hs
  obtain ⟨huk, huOut⟩ := keyed_out_of_exec_init hi hk hu
  obtain ⟨ks, w, hw, -⟩ := steps_usable P.length (usable_of_inv huInv huk)
  have hb : SameBuffers s (w.setOut (u.out ++ List.zipWith (· ^^^ ·) P ks)) :=
    (sameBuffers_of_steps (sameBuffers_of_exec_init hi hu) hw :)
  obtain ⟨v, u', hv, hu', hsame⟩ := exec_init_of_sameBuffers hi hs (inv_setOut (inv_steps huInv hw)) hk hb
  obtain rfl : u = v := Host.Outcome.next.inj (hu.symm.trans hv)
  obtain ⟨-, huOut'⟩ := keyed_out_of_exec_init hi (klen_ne_zero_of_sameBuffers hb hk) hu'
  obtain ⟨t', ht', hout, -⟩ := execAll_pseudoEncdec_back huk hsame hw
  refine ⟨_, t', _, execAll_cons_eq_next.2 ⟨u, hu, execAll_pseudoEncdec huk hw⟩, ?_,
    execAll_cons_eq_next.2 ⟨u', hu', ht'⟩, ?_⟩
  · rw [State.setOut_out, huOut]
  · rw [hout, huOut']

end Sys2Proof.Proofs
end

section
/-! SUPPORT. The control commands NOP and ZERO (47_control.md R180, R181). -/

namespace Sys2Proof.Proofs

open Sys2Proof.Machine

/-- Settles O10: the one way NOP can end is in the same state. -/
theorem nopHasNoEffect : Obligations.NopHasNoEffect := fun _ => exec_of_effect .nop

/-- STATUS reads VAR, KEYED and ECODE alone (R29), so ZERO leaves it as reset does. -/
theorem erase_status {s : State} : (erase s).status = 0 :=
  calc (erase s).status = State.reset.status := rfl
    _ = 0 := rfl

/-- Settles O11: ZERO ends in the erased state, whose registers are literals and whose memories are `zeros`. -/
theorem zeroErasesEverything : Obligations.ZeroErasesEverything := by
  refine fun s => ⟨erase s, exec_of_effect .zero, rfl, rfl, rfl, rfl, rfl, rfl, rfl, rfl, rfl, rfl,
    erase_status, rfl, rfl, fun M a => ?_⟩
  rw [erase_memory]
  exact Memory.read_zeros a M.size

end Sys2Proof.Proofs
end

section
/-! SUPPORT. Faults and idle steps (60_exceptions.md): what raises each code, what fault entry leaves unchanged, how a fault
is left, and the steps that take no command word. -/

namespace Sys2Proof.Proofs

open Sys2Proof.Machine Sys2Proof.Safety

variable {cw : Word} {i : Instr} {s t : State} {rest : List HostInput}

/-! ### Steps that take no command word -/

theorem step_idle (h : s.port = []) : step s = .next s := by
  simp only [step, serve, h]

theorem step_reset (h : s.port = .reset :: rest) : step s = .next { State.reset with port := rest } := by
  simp only [step, serve, h]; rfl

/-- Settles O7, its two clauses. -/
theorem idleAndResetSteps : Obligations.IdleAndResetSteps := ⟨fun _ => step_idle, fun _ _ => step_reset⟩

/-! ### Entering a fault -/

/-- Settles O16: every INIT command looks at KLEN first, and `raise` on a block without fault writes ECODE alone. -/
theorem initOnEmptyKeyRaisesEmptyKey : Obligations.InitOnEmptyKeyRaisesEmptyKey := by
  intro i s hi hk he
  rw [exec_init_empty hi hk, raise_of_clean he]; rfl

/-- Settles O17: every stepping command looks at KEYED first, before its operand. -/
theorem steppingUnkeyedRaisesNotKeyed : Obligations.SteppingUnkeyedRaisesNotKeyed := by
  intro i s hi hk he
  rw [exec_stepping_unkeyed hi hk, raise_of_clean he]; rfl

theorem isStepping_initOf {v : Variant} {c : Count} : isStepping (initOf v c) = false := by cases v <;> rfl

/-- No command is both an INIT and a stepping command. -/
theorem isStepping_of_isInit (h : isInit i = true) : isStepping i = false := by
  rcases isInit_cases h with rfl | ⟨v, c, rfl⟩
  · rfl
  · exact isStepping_initOf

theorem isInit_of_isStepping (h : isStepping i = true) : isInit i = false :=
  Bool.eq_false_iff.2 fun hi => absurd h (by simp [isStepping_of_isInit hi])

/-- On a block without fault a command raises EMPTY_KEY, or NOT_KEYED, or has no cause of a fault and ends without one
(R190). -/
theorem fault_cases_of_exec (he : s.ecode = .none) (hx : exec i s = .next t) :
    (isInit i = true ∧ s.klen.val = 0 ∧ t = s.setEcode .emptyKey) ∨
    (isStepping i = true ∧ s.keyed = false ∧ t = s.setEcode .notKeyed) ∨
    ((isInit i = true → s.klen.val ≠ 0) ∧ (isStepping i = true → s.keyed ≠ false) ∧ t.ecode = .none) := by
  cases exec_eq_next.1 hx with
  | emptyKey _ hi hk => exact .inl ⟨hi, hk, raise_of_clean he⟩
  | notKeyed _ hi hk => exact .inr (.inl ⟨hi, hk, raise_of_clean he⟩)
  | zero => exact .inr (.inr ⟨nofun, nofun, rfl⟩)
  | nop | kclr | keyb | keybFull | ivclr | ivb | ivbFull => exact .inr (.inr ⟨nofun, nofun, he⟩)
  | init v c _ hk h =>
    exact .inr (.inr ⟨fun _ => hk, by simp [isStepping_initOf],
      (congrArg State.ecode (initCommon_frame hk h).1 :).trans he⟩)
  | initIv _ _ hk _ h =>
    exact .inr (.inr ⟨fun _ => hk, nofun, (congrArg State.ecode (initCommon_frame hk h).1 :).trans he⟩)
  | stepping _ _ _ hi hk h =>
    exact .inr (.inr ⟨by simp [isInit_of_isStepping hi], by simp [hk],
      (congrArg State.ecode (steps_write h) :).trans he⟩)

/-- The two ways a block without fault takes a command word: it is illegal, or its command runs (R77). -/
theorem step_clean_cases (hp : s.port = .command cw :: rest) (he : s.ecode = .none) (h : step s = .next t) :
    (wordLegal cw = false ∧ t = (s.setPort rest).setEcode .illegalCmd) ∨
    ∃ i, wordLegal cw = true ∧ decode cw = .ok i ∧ exec i (s.setPort rest) = .next t := by
  rw [step_command hp] at h
  cases hl : wordLegal cw with
  | false =>
    rw [runCommand_illegal (s := s.setPort rest) he hl] at h
    exact .inl ⟨rfl, (Host.Outcome.next.inj h).symm⟩
  | true =>
    obtain ⟨i, hi⟩ := (decoderAcceptsExactlyTheLegalWords cw).2 hl
    rw [runCommand_decoded (s := s.setPort rest) he hi] at h
    exact .inr ⟨i, rfl, hi, h⟩

/-- Settles O18: an illegal word decodes to no command, and a legal one to one command, which is not both an INIT and a
stepping command. -/
theorem eachFaultIsRaisedExactlyWhenItsCauseHolds : Obligations.EachFaultIsRaisedExactlyWhenItsCauseHolds := by
  intro s t cw rest hp he h
  rcases step_clean_cases hp he h with ⟨hl, rfl⟩ | ⟨i, hl, hd, hx⟩
  · have hd : ∀ i, decode cw ≠ .ok i := fun i hi =>
      absurd ((decoderAcceptsExactlyTheLegalWords cw).1 ⟨i, hi⟩) (by simp [hl])
    simp [hl, hd]
  · rcases fault_cases_of_exec (s := s.setPort rest) he hx with
      ⟨hi, hk, rfl⟩ | ⟨hi, hk, rfl⟩ | ⟨hinit, hstep, ht⟩
    · have hs := isStepping_of_isInit hi
      simpa [hl, hd, hi, hs] using hk
    · have hn : isInit i = false := isInit_of_isStepping hi
      simpa [hl, hd, hi, hn] using hk
    · simpa [hl, hd, ht] using And.intro hinit hstep

/-- Settles O19: a command word leaves a fault only by one of the three ways in, and each writes ECODE alone. -/
theorem faultEntryWritesTheCodeOnly : Obligations.FaultEntryWritesTheCodeOnly := by
  refine ⟨fun _ _ => raise_of_clean, fun s t cw rest hp he h ht => ?_⟩
  rcases step_clean_cases hp he h with ⟨-, rfl⟩ | ⟨i, -, -, hx⟩
  · rfl
  · rcases fault_cases_of_exec (s := s.setPort rest) he hx with ⟨-, -, rfl⟩ | ⟨-, -, rfl⟩ | ⟨-, -, hclean⟩
    · rfl
    · rfl
    · exact absurd hclean ht

/-! ### Leaving a fault -/

/-- Settles O21, by the input the faulted block takes: none, the word of ZERO, another word, or a reset. -/
theorem onlyZeroAndResetLeaveAFault : Obligations.OnlyZeroAndResetLeaveAFault := by
  intro s t h he
  match hp : s.port with
  | [] =>
    cases (step_idle hp).symm.trans h
    exact .inl rfl
  | .reset :: rest =>
    cases (step_reset hp).symm.trans h
    exact .inr ⟨rfl, ⟨rest, .inr rfl⟩, rfl, rfl, rfl⟩
  | .command cw :: rest =>
    rw [step_command hp] at h
    by_cases hz : cw = zeroWord
    · subst hz
      cases (runCommand_zeroWord (s := s.setPort rest) he).symm.trans h
      exact .inr ⟨rfl, ⟨rest, .inl rfl⟩, rfl, rfl, rfl⟩
    · cases (runCommand_ignored (s := s.setPort rest) he hz).symm.trans h
      exact .inl rfl

end Sys2Proof.Proofs
end
